-- ==== Sys2Proof/Word.lean ====
section
/-! DEFINITION. The word types of the machine (spec/00_scope.md section 5, rules R3, R5, R6). Every value is unsigned. -/

namespace Sys2Proof

/-- A byte of data memory or of the instruction buffer (u8). -/
abbrev Byte := BitVec 8

/-- A register value, a data address or an instruction address (u16; R3, R5, R6). -/
abbrev Word := BitVec 16

/-- The value of a 32-bit data access (u32; R44, R45), which only the host makes. -/
abbrev DWord := BitVec 32

/-- A register identifier as it stands in the instruction stream: all 8 bits are the identifier (R63). -/
abbrev RegId := Byte

end Sys2Proof
end

