-- ==== Sys2Proof/Config.lean ====
section
/-! DEFINITION. The constants an implementation fixes. The three numbering maps (OPCODE_MAP, REG_ID_MAP, STATUS_MAP) have their
defaults where a repair may mend them: Decode.lean (`opcodeMap`, `regIdMap`) and Machine/Ops.lean (`statusMap`). -/

namespace Sys2Proof

/-- The number of data-memory bytes and the largest length of an instruction buffer (R5, R7). -/
def Config.spaceSize : Nat := 65536

/-- What a byte of data memory that the list of cells does not name holds. DESIGN CHOICE, log entry 7: the spec leaves the
power-on contents open (R11, R180); every contents of memory has a list under this choice. -/
def Config.unlistedByte : Byte := 0

/-- What RE, CR and R1 to R4 hold in `State.reset`. DESIGN CHOICE, log entry 6: the spec leaves it open (R11, R180). -/
def Config.powerOnWord : Word := 0

end Sys2Proof
end

