-- ==== Sys2Proof/Syntax.lean ====
section
/-! DEFINITION. The instruction set as syntax: one constructor of `Instr` for each of the 17 rows of spec/opcode_table.json. -/

namespace Sys2Proof

/-- The seven registers of the one register file (R4, R21). -/
inductive Reg where
  | ip | re | cr | r1 | r2 | r3 | r4
  deriving DecidableEq, Repr

/-- The registers in the order spec/10_state.md R22 lists them. -/
def Reg.all : List Reg := [.ip, .re, .cr, .r1, .r2, .r3, .r4]

/-- The 17 mnemonics (R62). -/
inductive Mnemonic where
  | hlt | movlr | movrr | movmr | movrm
  | add | sub | mult | div | cmp
  | jmp | jeq | jne | jlt | jle | jgt | jge
  deriving DecidableEq, Repr

/-- The mnemonics in the order of the table of R62. -/
def Mnemonic.all : List Mnemonic :=
  [.hlt, .movlr, .movrr, .movmr, .movrm, .add, .sub, .mult, .div, .cmp,
   .jmp, .jeq, .jne, .jlt, .jle, .jgt, .jge]

/-- An injective assignment of byte values to the mnemonics is the parameter OPCODE_MAP (R8, R62). -/
abbrev OpcodeMap := Mnemonic → Byte

/-- An injective assignment of byte values to the registers is the parameter REG_ID_MAP (R9, R22). -/
abbrev RegIdMap := Reg → RegId

/-- The six formats of R61. -/
inductive Format where
  | n | rw | wr | rr | rrr | w
  deriving DecidableEq, Repr

/-- An instruction with its operands in stream order (R61, R62). A `reg` operand is the identifier byte of the stream, valid or
not (R63), because checking it is a part of executing the instruction (R84); a `w16` operand is the composed word (R64). -/
inductive Instr where
  | hlt
  | movlr (dst : RegId) (value : Word)
  | movrr (dst src : RegId)
  | movmr (dst : RegId) (addr : Word)
  | movrm (addr : Word) (src : RegId)
  | add (dst left right : RegId)
  | sub (dst left right : RegId)
  | mult (dst left right : RegId)
  | div (dst left right : RegId)
  | cmp (left right : RegId)
  | jmp (addr : Word)
  | jeq (addr : Word)
  | jne (addr : Word)
  | jlt (addr : Word)
  | jle (addr : Word)
  | jgt (addr : Word)
  | jge (addr : Word)
  deriving DecidableEq, Repr

/-- The mnemonic of an instruction. -/
def Instr.mnemonic : Instr → Mnemonic
  | .hlt => .hlt
  | .movlr _ _ => .movlr
  | .movrr _ _ => .movrr
  | .movmr _ _ => .movmr
  | .movrm _ _ => .movrm
  | .add _ _ _ => .add
  | .sub _ _ _ => .sub
  | .mult _ _ _ => .mult
  | .div _ _ _ => .div
  | .cmp _ _ => .cmp
  | .jmp _ => .jmp
  | .jeq _ => .jeq
  | .jne _ => .jne
  | .jlt _ => .jlt
  | .jle _ => .jle
  | .jgt _ => .jgt
  | .jge _ => .jge

/-- The `reg` operands of an instruction in stream order: the order in which R84 checks them. -/
def Instr.regIds : Instr → List RegId
  | .hlt => []
  | .movlr dst _ => [dst]
  | .movrr dst src => [dst, src]
  | .movmr dst _ => [dst]
  | .movrm _ src => [src]
  | .add dst left right => [dst, left, right]
  | .sub dst left right => [dst, left, right]
  | .mult dst left right => [dst, left, right]
  | .div dst left right => [dst, left, right]
  | .cmp left right => [left, right]
  | .jmp _ => []
  | .jeq _ => []
  | .jne _ => []
  | .jlt _ => []
  | .jle _ => []
  | .jgt _ => []
  | .jge _ => []

/-- The destination `reg` operand the instruction names, where it has one (CMP writes CR without naming it, R130; MOVRM and the
jumps have none). -/
def Instr.dst? : Instr → Option RegId
  | .hlt => none
  | .movlr dst _ => some dst
  | .movrr dst _ => some dst
  | .movmr dst _ => some dst
  | .movrm _ _ => none
  | .add dst _ _ => some dst
  | .sub dst _ _ => some dst
  | .mult dst _ _ => some dst
  | .div dst _ _ => some dst
  | .cmp _ _ => none
  | .jmp _ => none
  | .jeq _ => none
  | .jne _ => none
  | .jlt _ => none
  | .jle _ => none
  | .jgt _ => none
  | .jge _ => none

end Sys2Proof
end

