-- ==== Sys2Proof/Decode.lean ====
section
/-! DEFINITION. The decoder and the encoder (spec/30_encoding.md), with the default numbering maps. The opcode map and the
register map are arguments (R8, R9, R22, R62: a model takes them as configuration); `decode`, `encode` and `regOfId` use the
defaults. -/

namespace Sys2Proof

/-- The default OPCODE_MAP: the position in the table of R62. DESIGN CHOICE, log entry 1: the spec's default. -/
def opcodeMap : OpcodeMap
  | .hlt => 0x00
  | .movlr => 0x01
  | .movrr => 0x02
  | .movmr => 0x03
  | .movrm => 0x04
  | .add => 0x05
  | .sub => 0x06
  | .mult => 0x07
  | .div => 0x08
  | .cmp => 0x09
  | .jmp => 0x0A
  | .jeq => 0x0B
  | .jne => 0x0C
  | .jlt => 0x0D
  | .jle => 0x0E
  | .jgt => 0x0F
  | .jge => 0x10

/-- The default REG_ID_MAP (R9, R22). DESIGN CHOICE, log entry 2: the spec's default. -/
def regIdMap : RegIdMap
  | .ip => 0
  | .re => 1
  | .cr => 2
  | .r1 => 3
  | .r2 => 4
  | .r3 => 5
  | .r4 => 6

/-- The register an identifier names under a map, if it names one (R9, R22). -/
def regOfIdWith (rm : RegIdMap) (i : RegId) : Option Reg :=
  Reg.all.find? (fun r => decide (rm r = i))

/-- The register an identifier names under the default map, if it names one (R22). -/
def regOfId (i : RegId) : Option Reg := regOfIdWith regIdMap i

/-- `valid_reg(i)` of R22. -/
def validReg (i : RegId) : Bool := (regOfId i).isSome

/-- The default identifier of what an identifier names under a map: that register's, or one that is invalid by default as well
(`defaultId_names`). The meanings are written over default identifiers; log entry 21. -/
def defaultId (rm : RegIdMap) (i : RegId) : RegId :=
  match regOfIdWith rm i with
  | some r => regIdMap r
  | none => if validReg i then 0xFF else i

/-- An instruction with each `reg` operand renamed. -/
def Instr.mapRegIds (f : RegId → RegId) : Instr → Instr
  | .hlt => .hlt
  | .movlr dst value => .movlr (f dst) value
  | .movrr dst src => .movrr (f dst) (f src)
  | .movmr dst addr => .movmr (f dst) addr
  | .movrm addr src => .movrm addr (f src)
  | .add dst left right => .add (f dst) (f left) (f right)
  | .sub dst left right => .sub (f dst) (f left) (f right)
  | .mult dst left right => .mult (f dst) (f left) (f right)
  | .div dst left right => .div (f dst) (f left) (f right)
  | .cmp left right => .cmp (f left) (f right)
  | .jmp addr => .jmp addr
  | .jeq addr => .jeq addr
  | .jne addr => .jne addr
  | .jlt addr => .jlt addr
  | .jle addr => .jle addr
  | .jgt addr => .jgt addr
  | .jge addr => .jge addr

/-- The mnemonic an opcode byte stands for under a map, or none: an unknown opcode (R66). All 8 bits take part (R62). -/
def mnemonicOf (om : OpcodeMap) (op : Byte) : Option Mnemonic :=
  Mnemonic.all.find? (fun m => decide (om m = op))

/-- The format of each mnemonic (R61, R62). -/
def formatOf : Mnemonic → Format
  | .hlt => .n
  | .movlr => .rw
  | .movrr => .rr
  | .movmr => .rw
  | .movrm => .wr
  | .add => .rrr
  | .sub => .rrr
  | .mult => .rrr
  | .div => .rrr
  | .cmp => .rr
  | .jmp => .w
  | .jeq => .w
  | .jne => .w
  | .jlt => .w
  | .jle => .w
  | .jgt => .w
  | .jge => .w

/-- The number of operand bytes of a format (R61). -/
def operandBytes : Format → Nat
  | .n => 0
  | .rw => 3
  | .wr => 3
  | .rr => 2
  | .rrr => 3
  | .w => 2

/-- How many operand bytes follow an opcode byte: a function of that byte alone, and 0 for an unknown one (R65). -/
def operandCount (om : OpcodeMap) (op : Byte) : Nat :=
  match mnemonicOf om op with
  | some m => operandBytes (formatOf m)
  | none => 0

/-- Two bytes as a word, the first the more significant (R64, R52). -/
def wordOfBytes (hi lo : Byte) : Word := hi ++ lo

/-- The byte `w[15:8]`. -/
def highByte (w : Word) : Byte := w.extractLsb' 8 8

/-- The byte `w[7:0]`. -/
def lowByte (w : Word) : Byte := w.extractLsb' 0 8

/-- What the decoder answers: an instruction and the bytes after it, or the reason there is none. -/
inductive Decoded where
  | instr (i : Instr) (rest : List Byte)
  /-- The opcode byte is in no row of the map (R66). -/
  | unknownOpcode (op : Byte)
  /-- The bytes end before the instruction's last byte (R68). -/
  | truncated
  deriving DecidableEq, Repr

/-- Format RW: register, word high, word low (R61). -/
def parseRW (mk : RegId → Word → Instr) : List Byte → Decoded
  | r :: hi :: lo :: rest => .instr (mk r (wordOfBytes hi lo)) rest
  | _ => .truncated

/-- Format WR: word high, word low, register (R61). -/
def parseWR (mk : Word → RegId → Instr) : List Byte → Decoded
  | hi :: lo :: r :: rest => .instr (mk (wordOfBytes hi lo) r) rest
  | _ => .truncated

/-- Format RR: register, register (R61). -/
def parseRR (mk : RegId → RegId → Instr) : List Byte → Decoded
  | a :: b :: rest => .instr (mk a b) rest
  | _ => .truncated

/-- Format RRR: three registers (R61). -/
def parseRRR (mk : RegId → RegId → RegId → Instr) : List Byte → Decoded
  | d :: l :: r :: rest => .instr (mk d l r) rest
  | _ => .truncated

/-- Format W: word high, word low (R61). -/
def parseW (mk : Word → Instr) : List Byte → Decoded
  | hi :: lo :: rest => .instr (mk (wordOfBytes hi lo)) rest
  | _ => .truncated

/-- The operands of a mnemonic, read from the bytes after its opcode (R61). -/
def parseOperands : Mnemonic → List Byte → Decoded
  | .hlt, bs => .instr .hlt bs
  | .movlr, bs => parseRW .movlr bs
  | .movrr, bs => parseRR .movrr bs
  | .movmr, bs => parseRW .movmr bs
  | .movrm, bs => parseWR .movrm bs
  | .add, bs => parseRRR .add bs
  | .sub, bs => parseRRR .sub bs
  | .mult, bs => parseRRR .mult bs
  | .div, bs => parseRRR .div bs
  | .cmp, bs => parseRR .cmp bs
  | .jmp, bs => parseW .jmp bs
  | .jeq, bs => parseW .jeq bs
  | .jne, bs => parseW .jne bs
  | .jlt, bs => parseW .jlt bs
  | .jle, bs => parseW .jle bs
  | .jgt, bs => parseW .jgt bs
  | .jge, bs => parseW .jge bs

/-- The decoder under an opcode map (R60, R62): total on any bytes. -/
def decodeWith (om : OpcodeMap) : List Byte → Decoded
  | [] => .truncated
  | op :: bs =>
    match mnemonicOf om op with
    | some m => parseOperands m bs
    | none => .unknownOpcode op

/-- The decoder under the default opcode map. -/
def decode (bs : List Byte) : Decoded := decodeWith opcodeMap bs

/-- The operand bytes of an instruction in stream order (R61, R64). -/
def operandsOf : Instr → List Byte
  | .hlt => []
  | .movlr dst value => [dst, highByte value, lowByte value]
  | .movrr dst src => [dst, src]
  | .movmr dst addr => [dst, highByte addr, lowByte addr]
  | .movrm addr src => [highByte addr, lowByte addr, src]
  | .add dst left right => [dst, left, right]
  | .sub dst left right => [dst, left, right]
  | .mult dst left right => [dst, left, right]
  | .div dst left right => [dst, left, right]
  | .cmp left right => [left, right]
  | .jmp addr => [highByte addr, lowByte addr]
  | .jeq addr => [highByte addr, lowByte addr]
  | .jne addr => [highByte addr, lowByte addr]
  | .jlt addr => [highByte addr, lowByte addr]
  | .jle addr => [highByte addr, lowByte addr]
  | .jgt addr => [highByte addr, lowByte addr]
  | .jge addr => [highByte addr, lowByte addr]

/-- The encoder under an opcode map (R60, R61). -/
def encodeWith (om : OpcodeMap) (i : Instr) : List Byte := om i.mnemonic :: operandsOf i

/-- The encoder under the default opcode map. -/
def encode (i : Instr) : List Byte := encodeWith opcodeMap i

/-- The bytes of an instruction given as the number of `nbits` bits that spec/opcode_table.json writes, byte 0 the most
significant (R61, R72; log entry 11), with zero bytes after it up to the longest instruction, 4 bytes. -/
def tableBytes (nbits w : Nat) : List Byte :=
  let n := (nbits + 7) / 8
  (List.range n).map (fun j => BitVec.ofNat 8 (w >>> (8 * (n - 1 - j)))) ++ List.replicate (4 - n) 0

/-- The instruction the decoder reads from a word of the opcode table. -/
def decodeTableWord (nbits w : Nat) : Option Instr :=
  match decode (tableBytes nbits w) with
  | .instr i _ => some i
  | .unknownOpcode _ => none
  | .truncated => none

end Sys2Proof
end

