-- ==== Sys2Proof/Machine/State.lean ====
section
/-! DEFINITION. The state of the wvm core (spec/10_state.md), the terminal causes and statuses, and the state after reset. -/

namespace Sys2Proof.Machine

/-- The five terminal causes of spec/60_exceptions.md R152 to R156. Taking one is a next state with `halted` set, never a fault. -/
inductive Cause where
  /-- HLT executed (R152). -/
  | halt
  /-- An opcode byte in no row of the map (R153). -/
  | unknownOpcode
  /-- DIV with a zero right operand (R154). -/
  | divByZero
  /-- A `reg` operand that is no register identifier (R155). -/
  | invalidRegister
  /-- A byte fetch with `pc >= L` (R156). -/
  | truncatedProgram
  deriving DecidableEq, Repr

/-- What a step returns (R34, R151): CONTINUE, or the status of a terminal cause. -/
inductive Status where
  | continues
  | stop (c : Cause)
  deriving DecidableEq, Repr

/-- Why the machine stops where the spec gives it no step. -/
inductive Fault where
  /-- Raised by `step` (through the fetch) when no run has ever been started, so no instruction buffer is bound: the interface
  does not allow that step (R188, R35). Log entry 9. SAFE: nothing is proved of a step the spec does not have. -/
  | noRunStarted
  deriving DecidableEq, Repr

/-- What the model declines to give a meaning to. -/
inductive Refusal where
  /-- For an arm of `exec` without a meaning; no arm is without one, so nothing raises it. SAFE. -/
  | notModelled (mnemonic : String)
  /-- Raised by `runStart`: a buffer longer than 65,536 bytes cannot be bound (R189, U9). Log entry 15. SAFE. -/
  | bufferTooLong
  /-- Raised by the host's register access with an identifier that names no register: outside the core (R188, U3). Log entry
  15. SAFE. -/
  | invalidHostRegister
  deriving DecidableEq, Repr

/-- Data memory as (address, byte) cells in one canonical form (`Memory.wf`); a byte no cell names is `Config.unlistedByte`. -/
abbrev Memory := List Host.Cell

/-- The canonical form: addresses strictly rising and inside the space (R28), no cell equal to an unlisted byte. -/
def Memory.wf (m : Memory) : Bool :=
  decide (m.Pairwise (fun c d => c.1 < d.1)) &&
    m.all (fun c => decide (c.1 < Config.spaceSize) && decide (c.2 ≠ Config.unlistedByte))

/-- The register file: seven named 16-bit registers (R4, R21). -/
structure RegFile where
  ip : Word
  re : Word
  cr : Word
  r1 : Word
  r2 : Word
  r3 : Word
  r4 : Word
  deriving DecidableEq, Repr

/-- THE ARCHITECTURAL STATE (R20): the register file, data memory (R28) and the halted flag (R27), these three components and no
other. A step is a function of it and of the run's buffer (`archStep`, Machine/Cycle.lean). -/
structure ArchState extends RegFile where
  mem : Memory
  halted : Bool
  deriving DecidableEq, Repr

/-- What the host's interface carries from step to step: the architectural state, and what the interface has no other place for.
`program` is the parameter of the run, IMEM with L its length (R29; log entry 5), none before the first run; no step changes it.
`status` is the output of the last step (R34; log entry 4); no step reads it. -/
structure State extends ArchState where
  program : Option (List Byte)
  status : Status
  deriving DecidableEq, Repr

/-- POWERON_STATE (R11, R180): the contents the spec leaves open. -/
structure PowerOn where
  re : Word
  cr : Word
  r1 : Word
  r2 : Word
  r3 : Word
  r4 : Word
  mem : Memory
  deriving DecidableEq, Repr

/-- A new machine (R180, R35): open contents from the argument, no buffer bound. IP and halted are unspecified there; DESIGN
CHOICE, log entry 8: 0 and running. -/
def State.powerOn (p : PowerOn) : State where
  ip := 0
  re := p.re
  cr := p.cr
  r1 := p.r1
  r2 := p.r2
  r3 := p.r3
  r4 := p.r4
  halted := false
  mem := p.mem
  program := none
  status := .continues

/-- The POWERON_STATE of `State.reset`. DESIGN CHOICE, log entries 6 and 7: the spec gives none. -/
def PowerOn.default : PowerOn where
  re := Config.powerOnWord
  cr := Config.powerOnWord
  r1 := Config.powerOnWord
  r2 := Config.powerOnWord
  r3 := Config.powerOnWord
  r4 := Config.powerOnWord
  mem := []

/-- The machine after its creation, before any run start (R180). -/
def State.reset : State := State.powerOn PowerOn.default

end Sys2Proof.Machine
end

