-- ==== Sys2Proof/Machine/Ops.lean ====
section
/-! DEFINITION. The named operations: the register file, data memory, `pc`, taking a terminal cause, ending a step. -/

namespace Sys2Proof.Machine

/-- The answer of an instruction's meaning and of a step. -/
abbrev Result := Host.Outcome State Fault Refusal

/-- The numeric status a step returns for each status is the parameter STATUS_MAP (R10, R151); a legal one gives 0 to CONTINUE
alone (`LegalStatusMap`, Safety.lean). -/
abbrev StatusMap := Status → Nat

/-- The default STATUS_MAP (R10, R151). DESIGN CHOICE, log entry 3: the spec's default. -/
def statusMap : StatusMap
  | .continues => 0
  | .stop .halt => 1
  | .stop .unknownOpcode => 2
  | .stop .divByZero => 3
  | .stop .invalidRegister => 4
  | .stop .truncatedProgram => 5

/-! ### The register file (R21) -/

/-- `x[r]`. -/
def readReg (s : State) : Reg → Word
  | .ip => s.ip
  | .re => s.re
  | .cr => s.cr
  | .r1 => s.r1
  | .r2 => s.r2
  | .r3 => s.r3
  | .r4 => s.r4

/-- `x[r] <- v`. No register is hardwired (R21). -/
def writeReg (s : State) (r : Reg) (v : Word) : State :=
  match r with
  | .ip => { s with ip := v }
  | .re => { s with re := v }
  | .cr => { s with cr := v }
  | .r1 => { s with r1 := v }
  | .r2 => { s with r2 := v }
  | .r3 => { s with r3 := v }
  | .r4 => { s with r4 := v }

/-! ### Data memory (spec/20_memory.md R41 to R47). An address is a `Word`, so it is reduced modulo 65,536 by its type. -/

/-- The byte of the first cell at address `a`, or the unlisted byte. -/
def readCell : Memory → Nat → Byte
  | [], _ => Config.unlistedByte
  | (k, v) :: m, a => if k = a then v else readCell m a

/-- The memory without its cells at address `a`. -/
def eraseCell : Memory → Nat → Memory
  | [], _ => []
  | (k, v) :: m, a => if k = a then eraseCell m a else (k, v) :: eraseCell m a

/-- The memory with a cell put in front of the first cell of a higher address. -/
def insertCell : Memory → Nat → Byte → Memory
  | [], a, b => [(a, b)]
  | (k, v) :: m, a, b => if a < k then (a, b) :: (k, v) :: m else (k, v) :: insertCell m a b

/-- Writing a byte: the old cell goes, and a new one is listed unless the byte is what an unlisted address reads as. -/
def writeCell (m : Memory) (a : Nat) (b : Byte) : Memory :=
  if b = Config.unlistedByte then eraseCell m a else insertCell (eraseCell m a) a b

/-- `MemRead(addr, 1)` (R42). -/
def memRead8 (m : Memory) (addr : Word) : Byte := readCell m addr.toNat

/-- `MemRead(addr, 2)` (R43): the lower address is the more significant; the second address wraps (R41). -/
def memRead16 (m : Memory) (addr : Word) : Word :=
  wordOfBytes (memRead8 m addr) (memRead8 m (addr + 1#16))

/-- `MemRead(addr, 4)` (R44), for the host alone. -/
def memRead32 (m : Memory) (addr : Word) : DWord :=
  memRead16 m addr ++ memRead16 m (addr + 2#16)

/-- `MemWrite(addr, 1, v)` (R45). -/
def memWrite8 (m : Memory) (addr : Word) (v : Byte) : Memory := writeCell m addr.toNat v

/-- `MemWrite(addr, 2, v)` (R45): the most significant byte at the lowest address. -/
def memWrite16 (m : Memory) (addr : Word) (v : Word) : Memory :=
  memWrite8 (memWrite8 m addr (highByte v)) (addr + 1#16) (lowByte v)

/-- `MemWrite(addr, 4, v)` (R45), for the host alone. -/
def memWrite32 (m : Memory) (addr : Word) (v : DWord) : Memory :=
  memWrite16 (memWrite16 m addr (v.extractLsb' 16 16)) (addr + 2#16) (v.extractLsb' 0 16)

/-! ### Ending a step -/

/-- TAKING A TERMINAL CAUSE, `raise` of R150, R158: `halted` is set and the step returns the cause's status; nothing is saved,
`pc` stays where the fetches left it, and nothing is transferred. There is no return from it (R159): only `runStart` leaves it. -/
def raise (c : Cause) (s : State) : State := { s with halted := true, status := .stop c }

/-- A step that completes an instruction other than HLT returns CONTINUE (R81, R151); `halted` is unchanged. -/
def complete (s : State) : State := { s with status := .continues }

/-- What a step returns to its caller under a status map: the number of its status (R10, R34), with the state after it. -/
def returnOf (sm : StatusMap) (o : Result) : Option (Nat × State) :=
  match o with
  | .next t => some (sm t.status, t)
  | .fault _ => none
  | .refused _ => none

/-- A step of a halted machine returns HALT and changes nothing (R88). -/
def haltedStep (s : State) : State := { s with status := .stop .halt }

/-- `pc <- addr` (R24). -/
def setPc (s : State) (addr : Word) : State := writeReg s .ip addr

end Sys2Proof.Machine
end

