-- ==== Sys2Proof/Machine/Operands.lean ====
section
/-! DEFINITION. The `reg` operands: each identifier is checked in stream order before anything is read or written, and the first
that names no register raises InvalidRegister (spec/40_step_cycle.md R84). A `w16` operand needs no check (R64). -/

namespace Sys2Proof.Machine

/-- One `reg` operand. -/
def withReg (a : RegId) (s : State) (k : Reg → Result) : Result :=
  match regOfId a with
  | some r => k r
  | none => .next (raise .invalidRegister s)

/-- Two `reg` operands in stream order. -/
def withRegs2 (a b : RegId) (s : State) (k : Reg → Reg → Result) : Result :=
  withReg a s (fun ra => withReg b s (fun rb => k ra rb))

/-- Three `reg` operands in stream order. -/
def withRegs3 (a b c : RegId) (s : State) (k : Reg → Reg → Reg → Result) : Result :=
  withReg a s (fun ra => withReg b s (fun rb => withReg c s (fun rc => k ra rb rc)))

end Sys2Proof.Machine
end

