-- ==== Sys2Proof/Machine/Arithmetic.lean ====
section
/-! DEFINITION. The meanings of ADD, SUB, MULT, DIV (spec/43_arithmetic.md): unsigned, 16 bits, silent wraparound (R124). -/

namespace Sys2Proof.Machine

/-- (a + b) mod 65536 (R120). -/
def addWords (a b : Word) : Word := a + b

/-- (a - b) mod 65536 (R121). -/
def subWords (a b : Word) : Word := a - b

/-- (a * b) mod 65536 (R122). -/
def multWords (a b : Word) : Word := a * b

/-- The integer quotient for b ≠ 0 (R123). -/
def quotient (a b : Word) : Word := a / b

/-- The remainder for b ≠ 0 (R123). -/
def remainder (a b : Word) : Word := a % b

/-- `x[dst] <- f(x[left], x[right])`, sources read first (R85). -/
def binaryOp (f : Word → Word → Word) (dst left right : RegId) (s : State) : Result :=
  withRegs3 dst left right s (fun d l r =>
    .next (complete (writeReg s d (f (readReg s l) (readReg s r)))))

/-- R120. -/
def execAdd (dst left right : RegId) (s : State) : Result := binaryOp addWords dst left right s

/-- R121. -/
def execSub (dst left right : RegId) (s : State) : Result := binaryOp subWords dst left right s

/-- R122. -/
def execMult (dst left right : RegId) (s : State) : Result := binaryOp multWords dst left right s

/-- R123: a zero divisor raises before any write; else dst, then RE (R85). -/
def execDiv (dst left right : RegId) (s : State) : Result :=
  withRegs3 dst left right s (fun d l r =>
    if readReg s r = 0#16 then .next (raise .divByZero s)
    else .next (complete (writeReg (writeReg s d (quotient (readReg s l) (readReg s r))) .re
      (remainder (readReg s l) (readReg s r)))))

end Sys2Proof.Machine
end

