-- ==== Sys2Proof/Machine/Flags.lean ====
section
/-! DEFINITION. The one condition code, CR (spec/10_state.md R26, R30): the three-way comparison of R130 and the jump conditions of
R147, which test all 16 bits. -/

namespace Sys2Proof.Machine

/-- The value CMP writes to CR (R130): 0 equal, 1 left less, 2 left greater, unsigned. -/
def compareWords (a b : Word) : Word :=
  if a = b then 0#16 else if a.toNat < b.toNat then 1#16 else 2#16

/-- JEQ: CR = 0 (R147). -/
def condEq (cr : Word) : Bool := decide (cr = 0#16)

/-- JNE: CR ≠ 0 (R147). -/
def condNe (cr : Word) : Bool := decide (cr ≠ 0#16)

/-- JLT: CR = 1 (R147). -/
def condLt (cr : Word) : Bool := decide (cr = 1#16)

/-- JLE: CR is 0 or 1 (R147). -/
def condLe (cr : Word) : Bool := decide (cr = 0#16 ∨ cr = 1#16)

/-- JGT: CR = 2 (R147). -/
def condGt (cr : Word) : Bool := decide (cr = 2#16)

/-- JGE: CR is 0 or 2 (R147). -/
def condGe (cr : Word) : Bool := decide (cr = 0#16 ∨ cr = 2#16)

end Sys2Proof.Machine
end

