-- ==== Sys2Proof/Machine/Compare.lean ====
section
/-! DEFINITION. The meaning of CMP (spec/44_compare.md). -/

namespace Sys2Proof.Machine

/-- R130. -/
def execCmp (left right : RegId) (s : State) : Result :=
  withRegs2 left right s (fun l r =>
    .next (complete (writeReg s .cr (compareWords (readReg s l) (readReg s r)))))

end Sys2Proof.Machine
end

