-- ==== Sys2Proof/Machine/Halt.lean ====
section
/-! DEFINITION. The meaning of HLT (spec/41_halt.md). As for every meaning, the state it is given has its opcode and operands fetched:
`ip` is the address of the byte after the instruction (R83; log entry 12). -/

namespace Sys2Proof.Machine

/-- R100. -/
def execHlt (s : State) : Result := .next (raise .halt s)

end Sys2Proof.Machine
end

