-- ==== Sys2Proof/Machine/Jumps.lean ====
section
/-! DEFINITION. The meanings of JMP, JEQ, JNE, JLT, JLE, JGT, JGE (spec/45_jumps.md). A target is not checked (R148). -/

namespace Sys2Proof.Machine

/-- A jump taken when its condition holds; else `pc` stays after the instruction (R83, R147). -/
def jumpWhen (taken : Bool) (addr : Word) (s : State) : Result :=
  .next (complete (if taken then setPc s addr else s))

/-- R140. -/
def execJmp (addr : Word) (s : State) : Result := jumpWhen true addr s

/-- R141. -/
def execJeq (addr : Word) (s : State) : Result := jumpWhen (condEq (readReg s .cr)) addr s

/-- R142. -/
def execJne (addr : Word) (s : State) : Result := jumpWhen (condNe (readReg s .cr)) addr s

/-- R143. -/
def execJlt (addr : Word) (s : State) : Result := jumpWhen (condLt (readReg s .cr)) addr s

/-- R144. -/
def execJle (addr : Word) (s : State) : Result := jumpWhen (condLe (readReg s .cr)) addr s

/-- R145. -/
def execJgt (addr : Word) (s : State) : Result := jumpWhen (condGt (readReg s .cr)) addr s

/-- R146. -/
def execJge (addr : Word) (s : State) : Result := jumpWhen (condGe (readReg s .cr)) addr s

end Sys2Proof.Machine
end

