-- ==== Sys2Proof/Machine/Movement.lean ====
section
/-! DEFINITION. The meanings of MOVLR, MOVRR, MOVMR, MOVRM (spec/42_data_movement.md). -/

namespace Sys2Proof.Machine

/-- R110. -/
def execMovlr (dst : RegId) (value : Word) (s : State) : Result :=
  withReg dst s (fun d => .next (complete (writeReg s d value)))

/-- R111. -/
def execMovrr (dst src : RegId) (s : State) : Result :=
  withRegs2 dst src s (fun d r => .next (complete (writeReg s d (readReg s r))))

/-- R112. -/
def execMovmr (dst : RegId) (addr : Word) (s : State) : Result :=
  withReg dst s (fun d => .next (complete (writeReg s d (memRead16 s.mem addr))))

/-- R113. -/
def execMovrm (addr : Word) (src : RegId) (s : State) : Result :=
  withReg src s (fun r => .next (complete { s with mem := memWrite16 s.mem addr (readReg s r) }))

end Sys2Proof.Machine
end

