-- ==== Sys2Proof/Machine/Dispatch.lean ====
section
/-! DEFINITION. The dispatch (R86): one arm per instruction. -/

namespace Sys2Proof.Machine

/-- The execution of an instruction whose bytes have been fetched (R81, log entry 12). -/
def exec (i : Instr) (s : State) : Host.Outcome State Fault Refusal :=
  match i with
  | .hlt => Sys2Proof.Machine.execHlt s
  | .movlr dst value => Sys2Proof.Machine.execMovlr dst value s
  | .movrr dst src => Sys2Proof.Machine.execMovrr dst src s
  | .movmr dst addr => Sys2Proof.Machine.execMovmr dst addr s
  | .movrm addr src => Sys2Proof.Machine.execMovrm addr src s
  | .add dst left right => Sys2Proof.Machine.execAdd dst left right s
  | .sub dst left right => Sys2Proof.Machine.execSub dst left right s
  | .mult dst left right => Sys2Proof.Machine.execMult dst left right s
  | .div dst left right => Sys2Proof.Machine.execDiv dst left right s
  | .cmp left right => Sys2Proof.Machine.execCmp left right s
  | .jmp addr => Sys2Proof.Machine.execJmp addr s
  | .jeq addr => Sys2Proof.Machine.execJeq addr s
  | .jne addr => Sys2Proof.Machine.execJne addr s
  | .jlt addr => Sys2Proof.Machine.execJlt addr s
  | .jle addr => Sys2Proof.Machine.execJle addr s
  | .jgt addr => Sys2Proof.Machine.execJgt addr s
  | .jge addr => Sys2Proof.Machine.execJge addr s

end Sys2Proof.Machine
end

