-- ==== Sys2Proof/Machine/Fetch.lean ====
section
/-! DEFINITION. The instruction fetch unit (spec/20_memory.md R51 to R53; the order of spec/40_step_cycle.md R81, R83), and placing an
instruction where the next step fetches. -/

namespace Sys2Proof.Machine

/-- What a fetch gives: the value with the state after it, a failing byte fetch (R51, the bytes before it consumed), or no buffer. -/
inductive Fetched (α : Type) where
  | done (a : α) (s : State)
  | truncated (s : State)
  | unbound

/-- One fetch after another. -/
def Fetched.bind {α β : Type} (x : Fetched α) (f : α → State → Fetched β) : Fetched β :=
  match x with
  | .done a s => f a s
  | .truncated s => .truncated s
  | .unbound => .unbound

/-- `pc` moved past `n` bytes, modulo 65,536 (R24, R53). -/
def advancePc (s : State) (n : Nat) : State := { s with ip := s.ip + BitVec.ofNat 16 n }

/-- `Fetch8()` of R51: `IMEM[pc]` where `pc < L`, and `pc` advanced modulo 65,536 (R53); a failing fetch leaves `pc`. -/
def fetch8 (s : State) : Fetched Byte :=
  match s.program with
  | none => .unbound
  | some p =>
    match p[s.ip.toNat]? with
    | some b => .done b (advancePc s 1)
    | none => .truncated s

/-- `Fetch16()` of R52: two byte fetches, the first the more significant. -/
def fetch16 (s : State) : Fetched Word :=
  (fetch8 s).bind (fun hi s1 => (fetch8 s1).bind (fun lo s2 => .done (wordOfBytes hi lo) s2))

/-- `Fetch32()` of R52. No instruction uses it. -/
def fetch32 (s : State) : Fetched DWord :=
  (fetch16 s).bind (fun hi s1 => (fetch16 s1).bind (fun lo s2 => .done (hi ++ lo) s2))

/-- `n` byte fetches in stream order: the operand fetch of R83, where a `w16` slot is two of them (R52; log entry 13). -/
def fetchBytes : Nat → State → Fetched (List Byte)
  | 0, s => .done [] s
  | n + 1, s => (fetch8 s).bind (fun b s1 => (fetchBytes n s1).bind (fun bs s2 => .done (b :: bs) s2))

/-- What the fetch and decode part of a step gives: an instruction with `pc` past it, a terminal cause, or no buffer. -/
inductive FetchedInstr where
  | instr (i : Instr) (s : State)
  | raised (c : Cause) (s : State)
  | unbound

/-- The answer of the decoder under an opcode map for the fetched bytes. -/
def decodeFetched (om : OpcodeMap) (bs : List Byte) (s : State) : FetchedInstr :=
  match decodeWith om bs with
  | .instr i _ => .instr i s
  | .unknownOpcode _ => .raised .unknownOpcode s
  | .truncated => .raised .truncatedProgram s

/-- The fetch and decode part of a step under an opcode map (R62, R81, R83): the opcode byte, then as many operand bytes as it asks
for (none for an unknown opcode, R66), then the decoder. -/
def fetchInstrWith (om : OpcodeMap) (s : State) : FetchedInstr :=
  match (fetch8 s).bind (fun op s1 =>
      (fetchBytes (operandCount om op) s1).bind (fun bs s2 => .done (op :: bs) s2)) with
  | .done bs s2 => decodeFetched om bs s2
  | .truncated s2 => .raised .truncatedProgram s2
  | .unbound => .unbound

/-- The fetch and decode part of a step under the default opcode map. -/
def fetchInstr (s : State) : FetchedInstr := fetchInstrWith opcodeMap s

/-- Bytes put into a buffer from an instruction address on, the addresses wrapping (R53). -/
def setBytes : List Byte → Word → List Byte → List Byte
  | base, _, [] => base
  | base, a, b :: bs => setBytes (base.set a.toNat b) (a + 1#16) bs

/-- The buffer made long enough to hold `n` bytes from address `a` on, with zero bytes and inside the space. -/
def extendTo (p : List Byte) (a n : Nat) : List Byte :=
  p ++ List.replicate (min Config.spaceSize (a + n) - p.length) 0

/-- The state with bytes placed where the next step fetches its instruction, and running. It stands for the host's binding of a
buffer at run start (R181; log entry 10). -/
def placeCode (bs : List Byte) (s : State) : State :=
  { s with
    halted := false
    program := some (setBytes (extendTo (s.program.getD []) s.ip.toNat bs.length) s.ip bs) }

end Sys2Proof.Machine
end

