-- ==== Sys2Proof/Machine/Cycle.lean ====
section
/-! DEFINITION. The step cycle (spec/40_step_cycle.md R81) with the numbering maps as configuration (R8 to R10, R22, R62, R151), and
the same step over the architectural state alone (R20). -/

namespace Sys2Proof.Machine

/-- `Step()` of R81 under an opcode map and a register map: the halted check, the fetch and decode, then the instruction, its
identifiers taken by the register map (log entry 21). The status it returns stands in the next state (log entry 4). -/
def stepWith (om : OpcodeMap) (rm : RegIdMap) (s : State) : Result :=
  if s.halted then .next (haltedStep s)
  else
    match fetchInstrWith om s with
    | .instr i s' => exec (i.mapRegIds (defaultId rm)) s'
    | .raised c s' => .next (raise c s')
    | .unbound => .fault .noRunStarted

/-- The step in the shape of R10, R20, R29 and R34: the three maps and the buffer are parameters, the three components are the
state, the number of the status is the output. It always answers (Obligations.StepIsAFunctionOfTheArchitecturalState). -/
def archStep (sm : StatusMap) (om : OpcodeMap) (rm : RegIdMap) (imem : List Byte) (a : ArchState) :
    Option (Nat × ArchState) :=
  (returnOf sm (stepWith om rm { toArchState := a, program := some imem, status := .continues })).map
    (fun x => (x.1, x.2.toArchState))

end Sys2Proof.Machine
end

