-- ==== Sys2Proof/Machine/Step.lean ====
section
/-! DEFINITION. One step (spec/40_step_cycle.md R81). -/

namespace Sys2Proof.Machine

/-- `Step()` of R81 under the default maps (log entries 1, 2). -/
def step (s : State) : Host.Outcome State Fault Refusal :=
  stepWith opcodeMap regIdMap s

/-- The state with a word of the opcode table placed where `step` fetches next (log entries 10, 11). -/
def State.withFetchWord (s : State) (nbits w : Nat) : State := placeCode (tableBytes nbits w) s

end Sys2Proof.Machine
end

