-- ==== Sys2Proof/Machine/HostOps.lean ====
section
/-! DEFINITION. What the host may do between steps or between runs (spec/70_reset_and_hazards.md R181, R188; spec/20_memory.md R46).
None of it is part of a step. -/

namespace Sys2Proof.Machine

/-- Run start (R181): bind the buffer, clear `halted`, set `pc` to 0, and only these (R182). The model's output field `status` goes
to CONTINUE, since no step of the run has returned (log entry 17). A buffer over 65,536 bytes cannot be bound (R189).
DESIGN CHOICE, log entry 20: R188 allows a run only when no run is in progress and gives no effect otherwise. Run start is not
guarded here: on a single-stepped run that has not ended (`halted` clear, a buffer bound) it begins the new run all the same. -/
def runStart (buffer : List Byte) (s : State) : Result :=
  if buffer.length ≤ Config.spaceSize then
    .next { s with program := some buffer, halted := false, ip := 0#16, status := .continues }
  else .refused .bufferTooLong

/-- `get_register(i)` under a register map, for a valid identifier (R188); none otherwise (U3, log entry 15). -/
def getRegisterWith (rm : RegIdMap) (i : RegId) (s : State) : Option Word := (regOfIdWith rm i).map (readReg s)

/-- `set_register(i, v)` under a register map, for a valid identifier (R188); refused otherwise (U3, log entry 15). -/
def setRegisterWith (rm : RegIdMap) (i : RegId) (v : Word) (s : State) : Result :=
  match regOfIdWith rm i with
  | some r => .next (writeReg s r v)
  | none => .refused .invalidHostRegister

/-- `get_register(i)` under the default map. -/
def getRegister (i : RegId) (s : State) : Option Word := getRegisterWith regIdMap i s

/-- `set_register(i, v)` under the default map. -/
def setRegister (i : RegId) (v : Word) (s : State) : Result := setRegisterWith regIdMap i v s

/-- `write_byte` (R188, R45). -/
def hostWriteByte (addr : Word) (b : Byte) (s : State) : State := { s with mem := memWrite8 s.mem addr b }

/-- `write_word16` (R188, R45). -/
def hostWriteWord16 (addr : Word) (v : Word) (s : State) : State := { s with mem := memWrite16 s.mem addr v }

/-- `write_word32` (R188, R45). -/
def hostWriteWord32 (addr : Word) (v : DWord) (s : State) : State := { s with mem := memWrite32 s.mem addr v }

/-- The bytes of `write_bytes` (R46), laid out from a cursor on. -/
def memWriteBytes : Memory → Word → List Byte → Memory
  | m, _, [] => m
  | m, c, b :: bs => memWriteBytes (memWrite8 m c b) (c + 1#16) bs

/-- `write_bytes(cursor, bytes)` (R46): the state and the advanced cursor. -/
def hostWriteBytes (cursor : Word) (bytes : List Byte) (s : State) : State × Word :=
  ({ s with mem := memWriteBytes s.mem cursor bytes }, cursor + BitVec.ofNat 16 bytes.length)

end Sys2Proof.Machine
end

