-- ==== Sys2Proof/Machine/Run.lean ====
section
/-! DEFINITION. The run (spec/40_step_cycle.md R82): steps until one returns a non-zero status. It runs under fuel, because a run may
never end (R187; log entry 16). -/

namespace Sys2Proof.Machine

/-- The loop of R82 over a step, for at most the given number of steps: the status it returns and the final state; none where no
step of those returned a non-zero status. -/
def loopOf (f : State → Result) : Nat → State → Option (Status × State)
  | 0, _ => none
  | k + 1, s =>
    match f s with
    | .next t => if t.status = .continues then loopOf f k t else some (t.status, t)
    | .fault _ => none
    | .refused _ => none

/-- `Run(buffer, length)` of R82 over a step: run start, then the loop. -/
def runOf (f : State → Result) (buffer : List Byte) (fuel : Nat) (s : State) : Option (Status × State) :=
  match runStart buffer s with
  | .next t => loopOf f fuel t
  | .fault _ => none
  | .refused _ => none

/-- The loop of R82 under the default maps. -/
def runLoop (fuel : Nat) (s : State) : Option (Status × State) := loopOf step fuel s

/-- `Run(buffer, length)` of R82 under the default maps. -/
def run (buffer : List Byte) (fuel : Nat) (s : State) : Option (Status × State) := runOf step buffer fuel s

/-- A run's answer with the number of its status under a status map (R10). -/
def numbered (sm : StatusMap) (x : Option (Status × State)) : Option (Nat × State) := x.map (fun y => (sm y.1, y.2))

/-- The loop of R82 under a status map, an opcode map and a register map (R10, R62, R22): it returns the number of the status. -/
def runLoopWith (sm : StatusMap) (om : OpcodeMap) (rm : RegIdMap) (fuel : Nat) (s : State) : Option (Nat × State) :=
  numbered sm (loopOf (stepWith om rm) fuel s)

/-- `Run(buffer, length)` of R82 under the three maps: it returns the number of the status. -/
def runWith (sm : StatusMap) (om : OpcodeMap) (rm : RegIdMap) (buffer : List Byte) (fuel : Nat) (s : State) :
    Option (Nat × State) :=
  numbered sm (runOf (stepWith om rm) buffer fuel s)

end Sys2Proof.Machine
end

