-- ==== Sys2Proof/Safety.lean ====
section
/-! DEFINITION. The words the statements are written in: the invariant of the machine, what an instruction or a terminal cause
leaves alone, where code lies in the buffer, and an instruction cut short by the buffer's end. -/

namespace Sys2Proof.Machine

/-- What holds between steps. Memory is in its canonical form (R28), a bound buffer is at most 65,536 bytes (R7, R189), and
`halted` is set exactly when the last step returned a non-zero status (R87). -/
structure StateInv (s : State) : Prop where
  memory : Memory.wf s.mem = true
  buffer : ∀ p, s.program = some p → p.length ≤ Config.spaceSize
  halting : s.halted = true ↔ s.status ≠ .continues

/-- Every register outside the list reads the same in both states. -/
def RegsSameExcept (rs : List Reg) (s t : State) : Prop :=
  ∀ r, r ∉ rs → readReg t r = readReg s r

/-- Every byte of memory at an address outside the list reads the same in both states. -/
def BytesSameExcept (addrs : List Word) (s t : State) : Prop :=
  ∀ a, a ∉ addrs → memRead8 t.mem a = memRead8 s.mem a

/-- The frame of an instruction that ends in CONTINUE (R89): the named registers and memory bytes may change, everything else
but the status is as before. -/
structure Frame (rs : List Reg) (addrs : List Word) (s t : State) : Prop where
  regs : RegsSameExcept rs s t
  bytes : BytesSameExcept addrs s t
  halted : t.halted = s.halted
  program : t.program = s.program
  status : t.status = .continues

/-- What taking a terminal cause leaves (R150, R158): `halted` set, the cause's status, `pc` at the given address, nothing else
changed. -/
structure Stopped (c : Cause) (pc : Word) (s t : State) : Prop where
  regs : RegsSameExcept [.ip] s t
  pc : t.ip = pc
  bytes : BytesSameExcept [] s t
  halted : t.halted = true
  program : t.program = s.program
  status : t.status = .stop c

/-- What R10 asks of a STATUS_MAP: the number is 0 for CONTINUE and for no terminal cause. -/
def LegalStatusMap (sm : StatusMap) : Prop := ∀ st, sm st = 0 ↔ st = .continues

/-- The bytes from an instruction address on, the addresses wrapping, are the given ones: each lies in the buffer (R51, R53). -/
def CodeAt (p : List Byte) : Word → List Byte → Prop
  | _, [] => True
  | a, b :: bs => p[a.toNat]? = some b ∧ CodeAt p (a + 1#16) bs

/-- The exception every instruction shares (R110 and its like, "TruncatedProgram if fewer than 4 bytes remain"): where only the
first `k` of the instruction's bytes lie in the buffer and the next one is missing, the step stops with TruncatedProgram, `pc` is
the address of the missing byte (R156, the spec's decisions D6 and D7; R140 says it of JMP), and nothing else but the halt is
changed. -/
def CutShort (i : Instr) : Prop :=
  ∀ (s : State) (p : List Byte) (k : Nat), s.halted = false → s.program = some p → k < (encode i).length →
    CodeAt p s.ip ((encode i).take k) → p[(s.ip + BitVec.ofNat 16 k).toNat]? = none →
    ∃ t, step s = .next t ∧ Stopped .truncatedProgram (s.ip + BitVec.ofNat 16 k) s t

end Sys2Proof.Machine
end

