-- ==== Sys2Proof/WellFormed.lean ====
section
/-! DEFINITION. When an instruction is well formed: each of its `reg` operands is a valid identifier (R63, R67: the only way a known
opcode can be ill-formed; every value of a `w16` operand is legal, R64). -/

namespace Sys2Proof

/-- Every `reg` operand names a register. -/
def Instr.wellFormed (i : Instr) : Bool := i.regIds.all validReg

end Sys2Proof
end

