-- ==== Sys2Proof/Certificates/Slice0/Obligations.lean ====
section
/-! DEFINITION. The statements for the provers, from the numbered rules of spec/. A statement whose byte or status numbers rest on a
default map, or whose behaviour is one of the spec's own decisions (D4 to D17 of spec/92_eei_decisions.md), says so. -/

open Sys2Proof Sys2Proof.Machine

/-! ### Encoding -/

/-- R60, R61, R64: under ANY injective opcode map, decoding the encoding of any instruction, well formed or not, with any bytes
after it, gives the instruction and those bytes. -/
def Obligations.DecodeOfEncodeGivesInstruction : Prop :=
  ∀ (om : OpcodeMap), Function.Injective om → ∀ (i : Instr) (rest : List Byte),
    decodeWith om (encodeWith om i ++ rest) = .instr i rest

/-- R60, R67: every bit is significant. Bytes that decode to an instruction are exactly its encoding and what follows. -/
def Obligations.DecodedBytesAreTheEncoding : Prop :=
  ∀ (om : OpcodeMap) (bs : List Byte) (i : Instr) (rest : List Byte),
    decodeWith om bs = .instr i rest → bs = encodeWith om i ++ rest

/-- Words of spec/95_test_vectors.md and of the family files, one of each format, decode to the instructions they are listed with.
They use the default maps (D1, D2; log entries 1, 2). -/
def Obligations.ListedWordsDecode : Prop :=
  decode [0x00] = .instr .hlt [] ∧
  decode [0x01, 0x03, 0x00, 0x05] = .instr (.movlr 3 0x0005) [] ∧
  decode [0x02, 0x04, 0x03] = .instr (.movrr 4 3) [] ∧
  decode [0x04, 0x01, 0x00, 0x03] = .instr (.movrm 0x0100 3) [] ∧
  decode [0x08, 0x05, 0x03, 0x04] = .instr (.div 5 3 4) [] ∧
  decode [0x09, 0x03, 0x04] = .instr (.cmp 3 4) [] ∧
  decode [0x0B, 0x00, 0x13] = .instr (.jeq 0x0013) []

/-- R65: the length of an instruction is a function of its opcode byte alone, 1, 3 or 4, and an unknown opcode has no operands. -/
def Obligations.LengthIsAFunctionOfTheOpcode : Prop :=
  ∀ (om : OpcodeMap), Function.Injective om →
    (∀ i : Instr, (encodeWith om i).length = 1 + operandCount om (om i.mnemonic)) ∧
    (∀ m : Mnemonic, 1 + operandCount om (om m) =
      if m = .hlt then 1
      else if m ∈ [.movlr, .movmr, .movrm, .add, .sub, .mult, .div] then 4 else 3) ∧
    ∀ op : Byte, (∀ m, om m ≠ op) → operandCount om op = 0

/-- R86: dispatch is closed, and nothing but the opcode byte takes part in it. Either the byte is exactly one mnemonic's; then,
whatever operand bytes follow, it is no unknown opcode and any instruction decoded from it has that mnemonic. Or it is no
mnemonic's; then it is an unknown opcode, whatever follows. -/
def Obligations.DispatchIsByTheOpcodeByteAlone : Prop :=
  ∀ (om : OpcodeMap), Function.Injective om → ∀ op : Byte,
    (∃ m, om m = op ∧ (∀ m', om m' = op → m' = m) ∧
      (∀ bs i rest, decodeWith om (op :: bs) = .instr i rest → i.mnemonic = m) ∧
      ∀ bs x, decodeWith om (op :: bs) ≠ .unknownOpcode x) ∨
    ((∀ m, om m ≠ op) ∧ ∀ bs, decodeWith om (op :: bs) = .unknownOpcode op)

/-- R22 with the default REG_ID_MAP (D2, log entry 2): 0 to 6 name IP, RE, CR, R1 to R4, and 7 to 255 name no register. -/
def Obligations.RegisterIdentifiersAreZeroToSix : Prop :=
  ∀ i : RegId,
    (∀ r, regOfId i = some r ↔ [Reg.ip, .re, .cr, .r1, .r2, .r3, .r4][i.toNat]? = some r) ∧
    (validReg i = true ↔ i.toNat ≤ 6)

/-! ### The register file and data memory -/

/-- S1 of spec/95_test_vectors.md (R21): for a valid identifier, the host's set_register and then get_register gives the value, and
nothing else changes; R188, U3 (log entry 15): an invalid identifier is refused and reads as nothing. -/
def Obligations.RegisterRoundTrip : Prop :=
  ∀ (i : RegId) (v : Word) (s : State),
    (∀ r, regOfId i = some r → ∃ t, setRegister i v s = .next t ∧ getRegister i t = some v ∧
      RegsSameExcept [r] s t ∧ BytesSameExcept [] s t ∧
      t.halted = s.halted ∧ t.program = s.program ∧ t.status = s.status) ∧
    (regOfId i = none → setRegister i v s = .refused .invalidHostRegister ∧ getRegister i s = none)

/-- R47: a read returns what the last write to the same bytes left, for 1, 2 and 4 bytes, at every address, the wrapping ones
included. -/
def Obligations.ReadReturnsLastWrite : Prop :=
  ∀ (m : Memory) (a : Word),
    (∀ v, memRead8 (memWrite8 m a v) a = v) ∧
    (∀ v, memRead16 (memWrite16 m a v) a = v) ∧
    ∀ v, memRead32 (memWrite32 m a v) a = v

/-- R43, R44: a wide read composes its bytes big-endian, each address reduced modulo 65,536. -/
def Obligations.WideReadsAreBigEndian : Prop :=
  ∀ (m : Memory) (a : Word),
    (memRead16 m a).toNat = (memRead8 m a).toNat * 256 + (memRead8 m (a + 1#16)).toNat ∧
    (memRead32 m a).toNat = (memRead16 m a).toNat * 65536 + (memRead16 m (a + 2#16)).toNat

/-- R45 (16-bit address of the 4-byte write: D19): the most significant byte goes to the lowest address, and no byte other than
the named ones changes. -/
def Obligations.WritesPlaceBytesBigEndian : Prop :=
  ∀ (m : Memory) (a : Word),
    (∀ v c, memRead8 (memWrite8 m a v) c = if c = a then v else memRead8 m c) ∧
    (∀ v c, (memRead8 (memWrite16 m a v) c).toNat =
      if c = a then v.toNat / 256 else if c = a + 1#16 then v.toNat % 256 else (memRead8 m c).toNat) ∧
    ∀ v c, (memRead8 (memWrite32 m a v) c).toNat =
      if c = a then v.toNat / 2 ^ 24
      else if c = a + 1#16 then v.toNat / 2 ^ 16 % 256
      else if c = a + 2#16 then v.toNat / 2 ^ 8 % 256
      else if c = a + 3#16 then v.toNat % 256
      else (memRead8 m c).toNat

/-- R46 (cursor reduced modulo 65,536: derived by the spec): write_bytes writes the bytes one after the other from the cursor on,
and the cursor advances by their number. Said by the empty sequence and by one more byte at the end. -/
def Obligations.WriteBytesLaysOutASequence : Prop :=
  ∀ (c : Word) (s : State),
    hostWriteBytes c [] s = (s, c) ∧
    ∀ (bs : List Byte) (b : Byte),
      (hostWriteBytes c (bs ++ [b]) s).2 = (hostWriteBytes c bs s).2 + 1#16 ∧
      (∀ r, readReg (hostWriteBytes c (bs ++ [b]) s).1 r = readReg s r) ∧
      ∀ a, memRead8 (hostWriteBytes c (bs ++ [b]) s).1.mem a =
        if a = (hostWriteBytes c bs s).2 then b else memRead8 (hostWriteBytes c bs s).1.mem a

/-- The model's memory form (log entry 7): two memories in the canonical form that read the same at every address are the same
list. -/
def Obligations.CanonicalMemoriesAreUnique : Prop :=
  ∀ m n : Memory, Memory.wf m = true → Memory.wf n = true →
    (∀ a, memRead8 m a = memRead8 n a) → m = n

/-! ### Reset, run start and the host -/

/-- R180, R35: a new machine holds the given POWERON_STATE, for every value of it, and no buffer is bound. The model's choices: IP 0
and halted 0 (log entry 8), and in `State.reset` zero for the open contents (log entries 6, 7). -/
def Obligations.PowerOnHoldsTheOpenContents : Prop :=
  (∀ p : PowerOn,
    readReg (State.powerOn p) .re = p.re ∧ readReg (State.powerOn p) .cr = p.cr ∧
    readReg (State.powerOn p) .r1 = p.r1 ∧ readReg (State.powerOn p) .r2 = p.r2 ∧
    readReg (State.powerOn p) .r3 = p.r3 ∧ readReg (State.powerOn p) .r4 = p.r4 ∧
    (State.powerOn p).mem = p.mem ∧ (State.powerOn p).program = none) ∧
  (∀ r, readReg State.reset r = 0#16) ∧ (∀ a, memRead8 State.reset.mem a = 0#8) ∧
  State.reset.halted = false ∧ State.reset.program = none

/-- R181: beginning a run binds the buffer, clears halted and sets pc to 0, and only these. The model's choices: the output field
starts at CONTINUE (log entry 17), a buffer over 65,536 bytes is refused (R189, log entry 15), and a run start is accepted in every
state, a single-stepped run that has not ended included (R188, log entry 20). -/
def Obligations.RunStartDoesThreeThings : Prop :=
  ∀ (buffer : List Byte) (s : State),
    (buffer.length ≤ 65536 → ∃ t, runStart buffer s = .next t ∧
      t.program = some buffer ∧ t.halted = false ∧ t.ip = 0#16 ∧ t.status = .continues ∧
      RegsSameExcept [.ip] s t ∧ BytesSameExcept [] s t) ∧
    (65536 < buffer.length → runStart buffer s = .refused .bufferTooLong)

/-- R188, R35 (log entry 9): with no buffer bound and the halted flag clear, which is how a machine is before its first run, a step
is not allowed, and the model's step faults by name. -/
def Obligations.StepBeforeAnyRunFaults : Prop :=
  ∀ s : State, s.halted = false → s.program = none → step s = .fault .noRunStarted

/-- The invariant holds after creation, for every POWERON_STATE whose memory is in the canonical form (which every contents has, log
entry 7), and so at reset. -/
def Obligations.InvariantHoldsAtReset : Prop :=
  (∀ p : PowerOn, Memory.wf p.mem = true → StateInv (State.powerOn p)) ∧ StateInv State.reset

/-- Every step from every state with the invariant gives a state with it: memory stays in its canonical form, the bound buffer stays
within 65,536 bytes, and halted is set exactly when the status returned is not CONTINUE (R87, R189). -/
def Obligations.EveryStepKeepsTheInvariant : Prop :=
  ∀ s t : State, StateInv s → step s = .next t → StateInv t

/-- Every operation of the host between steps (R188) keeps the invariant, a run start in every state where the model accepts it (log
entry 20). -/
def Obligations.HostOperationsKeepTheInvariant : Prop :=
  ∀ s : State, StateInv s →
    (∀ buffer t, runStart buffer s = .next t → StateInv t) ∧
    (∀ i v t, setRegister i v s = .next t → StateInv t) ∧
    (∀ a b, StateInv (hostWriteByte a b s)) ∧ (∀ a v, StateInv (hostWriteWord16 a v s)) ∧
    (∀ a v, StateInv (hostWriteWord32 a v s)) ∧ ∀ c bs, StateInv (hostWriteBytes c bs s).1

/-! ### Fetch and the step -/

/-- R51, R53 (a failing fetch leaves pc: D6; the wrap: D12): Fetch8 with pc < L reads IMEM[pc] and adds 1 to pc modulo 65,536; with
pc >= L it raises and changes nothing. -/
def Obligations.FetchOfAByte : Prop :=
  ∀ (s : State) (p : List Byte), s.program = some p →
    (∀ h : s.ip.toNat < p.length, ∃ t, fetch8 s = .done p[s.ip.toNat] t ∧
      t.ip.toNat = (s.ip.toNat + 1) % 65536 ∧ t = { s with ip := t.ip }) ∧
    (p.length ≤ s.ip.toNat → fetch8 s = .truncated s)

/-- R52: Fetch16 and Fetch32 are two shorter fetches, the first the more significant; where the second byte of a Fetch16 is missing,
the first stays consumed. -/
def Obligations.WideFetchesAreBigEndian : Prop :=
  ∀ (s : State) (p : List Byte), s.program = some p →
    (∀ hi lo, CodeAt p s.ip [hi, lo] → ∃ w, fetch16 s = .done w (advancePc s 2) ∧
      w.toNat = hi.toNat * 256 + lo.toNat) ∧
    (∀ a b c d, CodeAt p s.ip [a, b, c, d] → ∃ w, fetch32 s = .done w (advancePc s 4) ∧
      w.toNat = (a.toNat * 256 + b.toNat) * 65536 + (c.toNat * 256 + d.toNat)) ∧
    ∀ hi, p[s.ip.toNat]? = some hi → p[(s.ip + 1#16).toNat]? = none → fetch16 s = .truncated (advancePc s 1)

/-- R81, R83: where the bytes at pc decode to an instruction, the step of a running machine is the execution of that instruction in
the state with pc past its bytes. -/
def Obligations.StepRunsTheDecodedInstruction : Prop :=
  ∀ (s : State) (p bs : List Byte) (i : Instr), s.halted = false → s.program = some p →
    CodeAt p s.ip bs → decode bs = .instr i [] → step s = exec i (advancePc s bs.length)

/-- R88 (status HALT whatever the cause: D17): a step of a halted machine changes nothing and returns HALT. -/
def Obligations.HaltedStepChangesNothing : Prop :=
  ∀ s : State, s.halted = true → ∃ t, step s = .next t ∧ Stopped .halt s.ip s t

/-- R159: once halted = 1 no instruction executes, however many steps are taken, so nothing changes; and the way out is a run start,
which clears halted and sets pc to 0. -/
def Obligations.HaltedIsTerminal : Prop :=
  ∀ s : State, s.halted = true →
    (∀ k, ∃ t, Sys2Proof.core.run (k + 1) s = .next t ∧ Stopped .halt s.ip s t) ∧
    ∀ buffer, buffer.length ≤ 65536 → ∃ t, runStart buffer s = .next t ∧ t.halted = false ∧ t.ip = 0#16

/-- R87: with a buffer bound every step gives a next state, and either it returns CONTINUE with halted = 0 or a non-zero status with
halted = 1. -/
def Obligations.EveryStepContinuesOrHalts : Prop :=
  ∀ s : State, s.program ≠ none → ∃ t, step s = .next t ∧
    ((t.status = .continues ∧ t.halted = false) ∨ (t.status ≠ .continues ∧ t.halted = true))

/-- R157 (the order: D10): which status a step returns, by the first check of the list that fires. -/
def Obligations.StatusByPriority : Prop :=
  ∀ (s : State) (p : List Byte), s.program = some p → ∃ t, step s = .next t ∧
    (s.halted = true → t.status = .stop .halt) ∧
    (s.halted = false → p[s.ip.toNat]? = none → t.status = .stop .truncatedProgram) ∧
    (s.halted = false → ∀ op, p[s.ip.toNat]? = some op →
      (mnemonicOf opcodeMap op = none → t.status = .stop .unknownOpcode) ∧
      (∀ m, mnemonicOf opcodeMap op = some m →
        (∀ k, k ≤ operandBytes (formatOf m) → p[(s.ip + BitVec.ofNat 16 k).toNat]? = none →
          t.status = .stop .truncatedProgram) ∧
        (∀ i, CodeAt p s.ip (encode i) →
          (i.wellFormed = false → t.status = .stop .invalidRegister) ∧
          (i.wellFormed = true →
            (i = .hlt → t.status = .stop .halt) ∧
            (∀ dst left right r, i = .div dst left right → regOfId right = some r →
              t.status = if readReg (advancePc s 4) r = 0#16 then .stop .divByZero else .continues) ∧
            (i ≠ .hlt → (∀ dst left right, i ≠ .div dst left right) → t.status = .continues)))))

/-- R34: the status is an output. A step does not read the one before it (the model's own field, log entry 4). -/
def Obligations.StatusIsNeverRead : Prop :=
  ∀ (s : State) (x : Status), step { s with status := x } = step s

/-- R59: stores are never seen by instruction fetch, whatever data memory holds, and no step changes the buffer or its length. -/
def Obligations.FetchIsSeparateFromDataMemory : Prop :=
  (∀ (s : State) (m : Memory),
    (∀ i t, fetchInstr s = .instr i t → fetchInstr { s with mem := m } = .instr i { t with mem := m }) ∧
    (∀ c t, fetchInstr s = .raised c t → fetchInstr { s with mem := m } = .raised c { t with mem := m })) ∧
  ∀ s t : State, step s = .next t → t.program = s.program

/-- R89: an instruction changes only what its rule names. RE changes only under DIV or an instruction naming RE as destination, CR
only under CMP or one naming CR, memory only under MOVRM and there only the bytes at addr and addr + 1 (none where src is invalid),
another register only as the named destination or, for IP, under a jump; the buffer never; and the fetch before it changes pc
alone. -/
def Obligations.StepFrame : Prop :=
  (∀ (s t : State) (i : Instr), fetchInstr s = .instr i t → t = { s with ip := t.ip }) ∧
  (∀ (s t : State) (c : Cause), fetchInstr s = .raised c t → t = { s with ip := t.ip }) ∧
  ∀ (i : Instr) (s t : State), exec i s = .next t →
    (∀ r, readReg t r ≠ readReg s r →
      (∃ dst, i.dst? = some dst ∧ regOfId dst = some r) ∨ (r = .re ∧ i.mnemonic = .div) ∨
      (r = .cr ∧ i.mnemonic = .cmp) ∨
      (r = .ip ∧ i.mnemonic ∈ [.jmp, .jeq, .jne, .jlt, .jle, .jgt, .jge])) ∧
    (i.mnemonic ≠ .movrm → t.mem = s.mem) ∧
    (∀ addr src, i = .movrm addr src →
      BytesSameExcept [addr, addr + 1#16] s t ∧ (regOfId src = none → t.mem = s.mem)) ∧
    t.program = s.program ∧
    (t.halted ≠ s.halted → ∃ c, t.status = .stop c)

/-- R91 (derived by the spec from R21 and R83): an instruction that names IP as a source reads the address of the byte following
itself: pc + 3 for MOVRR and CMP, pc + 4 for MOVRM, ADD, SUB, MULT and DIV, modulo 65,536. Each source slot is named, with any
register in the other one; a DIV whose right operand is 0, IP's or another's, stops (R154). -/
def Obligations.IpAsSourceIsTheNextAddress : Prop :=
  ∀ (s : State) (p : List Byte), s.halted = false → s.program = some p →
    (∀ dst d, regOfId dst = some d → CodeAt p s.ip (encode (.movrr dst (regIdMap .ip))) →
      ∃ t, step s = .next t ∧ readReg t d = s.ip + 3#16 ∧ t.status = .continues) ∧
    (∀ addr, CodeAt p s.ip (encode (.movrm addr (regIdMap .ip))) →
      ∃ t, step s = .next t ∧ memRead16 t.mem addr = s.ip + 4#16 ∧ t.ip = s.ip + 4#16) ∧
    (∀ other r, regOfId other = some r →
      (CodeAt p s.ip (encode (.cmp (regIdMap .ip) other)) →
        ∃ t, step s = .next t ∧ t.ip = s.ip + 3#16 ∧
          t.cr.toNat = (if s.ip + 3#16 = readReg (advancePc s 3) r then 0
            else if (s.ip + 3#16).toNat < (readReg (advancePc s 3) r).toNat then 1 else 2)) ∧
      (CodeAt p s.ip (encode (.cmp other (regIdMap .ip))) →
        ∃ t, step s = .next t ∧ t.ip = s.ip + 3#16 ∧
          t.cr.toNat = (if readReg (advancePc s 3) r = s.ip + 3#16 then 0
            else if (readReg (advancePc s 3) r).toNat < (s.ip + 3#16).toNat then 1 else 2))) ∧
    (∀ dst other d r, regOfId dst = some d → regOfId other = some r →
      (CodeAt p s.ip (encode (.add dst (regIdMap .ip) other)) →
        ∃ t, step s = .next t ∧ readReg t d = s.ip + 4#16 + readReg (advancePc s 4) r ∧ t.status = .continues) ∧
      (CodeAt p s.ip (encode (.add dst other (regIdMap .ip))) →
        ∃ t, step s = .next t ∧ readReg t d = readReg (advancePc s 4) r + (s.ip + 4#16) ∧ t.status = .continues) ∧
      (CodeAt p s.ip (encode (.sub dst (regIdMap .ip) other)) →
        ∃ t, step s = .next t ∧ readReg t d = s.ip + 4#16 - readReg (advancePc s 4) r ∧ t.status = .continues) ∧
      (CodeAt p s.ip (encode (.sub dst other (regIdMap .ip))) →
        ∃ t, step s = .next t ∧ readReg t d = readReg (advancePc s 4) r - (s.ip + 4#16) ∧ t.status = .continues) ∧
      (CodeAt p s.ip (encode (.mult dst (regIdMap .ip) other)) →
        ∃ t, step s = .next t ∧ readReg t d = (s.ip + 4#16) * readReg (advancePc s 4) r ∧ t.status = .continues) ∧
      (CodeAt p s.ip (encode (.mult dst other (regIdMap .ip))) →
        ∃ t, step s = .next t ∧ readReg t d = readReg (advancePc s 4) r * (s.ip + 4#16) ∧ t.status = .continues)) ∧
    ∀ dst other d r, regOfId dst = some d → regOfId other = some r →
      (CodeAt p s.ip (encode (.div dst (regIdMap .ip) other)) → ∃ t, step s = .next t ∧
        if readReg (advancePc s 4) r = 0#16 then Stopped .divByZero (s.ip + 4#16) s t
        else (d ≠ .re → (readReg t d).toNat = (s.ip + 4#16).toNat / (readReg (advancePc s 4) r).toNat) ∧
          t.re.toNat = (s.ip + 4#16).toNat % (readReg (advancePc s 4) r).toNat ∧ t.status = .continues) ∧
      (CodeAt p s.ip (encode (.div dst other (regIdMap .ip))) → ∃ t, step s = .next t ∧
        if s.ip + 4#16 = 0#16 then Stopped .divByZero (s.ip + 4#16) s t
        else (d ≠ .re → (readReg t d).toNat = (readReg (advancePc s 4) r).toNat / (s.ip + 4#16).toNat) ∧
          t.re.toNat = (readReg (advancePc s 4) r).toNat % (s.ip + 4#16).toNat ∧ t.status = .continues)

/-- R82: a run is a run start and then the loop, and the loop returns the status of the first step that returns a non-zero one, with
the state after that step, if it comes within the fuel (log entry 16). The model's choices: a buffer that cannot be bound runs nothing
(log entry 15), and the run start has no guard, so a run is accepted in every state, a single-stepped run that has not ended included,
which R188 does not allow (log entry 20). -/
def Obligations.RunReturnsTheFirstNonZeroStatus : Prop :=
  (∀ (buffer : List Byte) (s : State),
    (buffer.length ≤ 65536 → ∃ u, runStart buffer s = .next u ∧ ∀ fuel, run buffer fuel s = runLoop fuel u) ∧
    (65536 < buffer.length → ∀ fuel, run buffer fuel s = none)) ∧
  ∀ (fuel : Nat) (s : State) (st : Status) (t : State), runLoop fuel s = some (st, t) ↔
    ∃ k u, k < fuel ∧ Sys2Proof.core.run k s = .next u ∧
      (∀ j, j < k → ∃ v, Sys2Proof.core.run (j + 1) s = .next v ∧ v.status = .continues) ∧
      step u = .next t ∧ t.status = st ∧ st ≠ .continues

/-! ### The terminal causes -/

/-- R150: `raise` sets halted, makes the step return the cause's status, and changes nothing else, `pc` included. -/
def Obligations.RaiseDoesThreeThings : Prop :=
  ∀ (c : Cause) (s : State), Stopped c s.ip s (raise c s)

/-- R151 (the numbers: D3, log entry 3): CONTINUE is 0, the causes are 1 to 5 in the table's order, so zero means CONTINUE and
different statuses have different numbers. -/
def Obligations.StatusNumbers : Prop :=
  [Status.continues, .stop .halt, .stop .unknownOpcode, .stop .divByZero, .stop .invalidRegister,
    .stop .truncatedProgram].map statusMap = [0, 1, 2, 3, 4, 5] ∧
  (∀ st, statusMap st = 0 ↔ st = .continues) ∧ ∀ st st', statusMap st = statusMap st' → st = st'

/-- R152: on a running machine, Halt is raised by the HLT instruction and by nothing else; then pc is the address of the HLT + 1 and
all else is unchanged. -/
def Obligations.HaltIsRaisedByHltAlone : Prop :=
  ∀ (s : State) (p : List Byte), s.halted = false → s.program = some p →
    (CodeAt p s.ip (encode .hlt) → ∃ t, step s = .next t ∧ Stopped .halt (s.ip + 1#16) s t) ∧
    ∀ t, step s = .next t → t.status = .stop .halt → CodeAt p s.ip (encode .hlt)

/-- R66, R153 (pc is not rolled back: D7; bytes 0x11 to 0xFF with the default map: D1): an unknown opcode byte is consumed, no
operand is fetched, and the step stops with nothing else changed. -/
def Obligations.UnknownOpcodeStops : Prop :=
  ∀ (s : State) (p : List Byte) (op : Byte), s.halted = false → s.program = some p →
    p[s.ip.toNat]? = some op →
    (0x11 ≤ op.toNat → ∃ t, step s = .next t ∧ Stopped .unknownOpcode (s.ip + 1#16) s t) ∧
    ∀ t, step s = .next t → t.status = .stop .unknownOpcode → 0x11 ≤ op.toNat

/-- R154 (DIV raises before any write: D5): an executed instruction answers DivByZero exactly when it is a well-formed DIV whose
right register holds 0, and then nothing but the halt has changed. -/
def Obligations.DivByZeroIsRaisedByDivAlone : Prop :=
  ∀ (i : Instr) (s : State),
    ((∃ t, exec i s = .next t ∧ t.status = .stop .divByZero) ↔
      i.wellFormed = true ∧ ∃ dst left right r, i = .div dst left right ∧ regOfId right = some r ∧ readReg s r = 0#16) ∧
    ∀ t, exec i s = .next t → t.status = .stop .divByZero → Stopped .divByZero s.ip s t

/-- R155, R84 (D4): an instruction with an invalid register identifier stops with no register and no memory byte changed, and no
well-formed instruction does. -/
def Obligations.InvalidRegisterStops : Prop :=
  ∀ (i : Instr) (s : State),
    (i.wellFormed = false → ∃ t, exec i s = .next t ∧ Stopped .invalidRegister s.ip s t) ∧
    (i.wellFormed = true → ∀ t, exec i s = .next t → t.status ≠ .stop .invalidRegister)

/-- R156 (pc at the missing byte: D6, D7): a running machine stops with TruncatedProgram only where the bytes from pc on that lie in
the buffer are none, or an opcode byte with fewer operand bytes than it asks for, and the next one is missing; pc is then the
address of that missing byte, at or beyond L, and nothing else has changed; and with L = 65,536 the cause cannot arise. -/
def Obligations.TruncatedStopsAtTheMissingByte : Prop :=
  ∀ (s t : State) (p : List Byte), s.halted = false → s.program = some p → step s = .next t →
    (t.status = .stop .truncatedProgram → ∃ bs : List Byte, CodeAt p s.ip bs ∧
      (∀ op ops, bs = op :: ops → ops.length < operandCount opcodeMap op) ∧
      t.ip = s.ip + BitVec.ofNat 16 bs.length ∧ p[t.ip.toNat]? = none ∧ p.length ≤ t.ip.toNat ∧
      Stopped .truncatedProgram t.ip s t) ∧
    (p.length = 65536 → t.status ≠ .stop .truncatedProgram)

/-- R168 (derived by the spec): where a stop's place is, from pc and the status: the HLT at pc - 1, the unknown byte at pc - 1, the
DIV at pc - 4, the missing byte at pc. -/
def Obligations.StopPlaceIsRecoverable : Prop :=
  ∀ (s t : State) (p : List Byte), s.halted = false → s.program = some p → step s = .next t →
    (t.status = .stop .halt → CodeAt p (t.ip - 1#16) (encode .hlt)) ∧
    (t.status = .stop .unknownOpcode → ∃ op, p[(t.ip - 1#16).toNat]? = some op ∧ mnemonicOf opcodeMap op = none) ∧
    (t.status = .stop .divByZero → ∃ dst left right, CodeAt p (t.ip - 4#16) (encode (.div dst left right))) ∧
    (t.status = .stop .truncatedProgram → p[t.ip.toNat]? = none)

/-- R83, R84: a well-formed instruction that is neither HLT nor a DIV with a zero divisor completes and returns CONTINUE in every
state. -/
def Obligations.WellFormedInstructionsComplete : Prop :=
  ∀ (i : Instr) (s : State), i.wellFormed = true → i ≠ .hlt →
    (∀ dst left right r, i = .div dst left right → regOfId right = some r → readReg s r ≠ 0#16) →
    ∃ t, exec i s = .next t ∧ t.status = .continues ∧ t.halted = s.halted

/-- R148: the target of a jump is not checked. A JMP to an address at or beyond L completes, and the next step stops with
TruncatedProgram and pc = addr. -/
def Obligations.JumpTargetIsNotChecked : Prop :=
  ∀ (s : State) (p : List Byte) (addr : Word), s.halted = false → s.program = some p →
    CodeAt p s.ip (encode (.jmp addr)) → p.length ≤ addr.toNat →
    ∃ t u, step s = .next t ∧ t.ip = addr ∧ t.status = .continues ∧
      step t = .next u ∧ Stopped .truncatedProgram addr t u

/-! ### The instructions. In each, the encoding is the one under any opcode map, `CutShort` is the rule's TruncatedProgram with pc at
the missing byte (R156, the spec's decisions D6 and D7; R140 itself says it of JMP), an invalid operand is its InvalidRegister, and the effect is said of `exec` in the state with pc past the instruction (R83). -/

/-- R100. HLT sets halted and returns HALT; pc is the address of the HLT plus 1; every further step changes nothing. Its
opcode byte missing, R156 (pc stays: D6, D7). -/
def Obligations.HltHalts : Prop :=
  (∀ om, encodeWith om .hlt = [om .hlt]) ∧ CutShort .hlt ∧
  (∀ s : State, ∃ t, exec .hlt s = .next t ∧ Stopped .halt s.ip s t ∧ step t = .next t) ∧
  ∀ (s : State) (p : List Byte), s.halted = false → s.program = some p → CodeAt p s.ip (encode .hlt) →
    step s = exec .hlt (advancePc s 1)

/-- R110; cut short, R156 (pc at the missing byte: D6, D7). -/
def Obligations.MovlrLoadsTheLiteral : Prop :=
  ∀ (dst : RegId) (value : Word),
    (∀ om, encodeWith om (.movlr dst value) = [om .movlr, dst, highByte value, lowByte value]) ∧
    CutShort (.movlr dst value) ∧
    ∀ s : State,
      (∀ d, regOfId dst = some d → ∃ t, exec (.movlr dst value) s = .next t ∧
        readReg t d = value ∧ Frame [d] [] s t) ∧
      (regOfId dst = none → ∃ t, exec (.movlr dst value) s = .next t ∧ Stopped .invalidRegister s.ip s t)

/-- R111; cut short, R156 (pc at the missing byte: D6, D7). -/
def Obligations.MovrrCopiesTheRegister : Prop :=
  ∀ (dst src : RegId),
    (∀ om, encodeWith om (.movrr dst src) = [om .movrr, dst, src]) ∧
    CutShort (.movrr dst src) ∧
    ∀ s : State,
      (∀ d r, regOfId dst = some d → regOfId src = some r → ∃ t, exec (.movrr dst src) s = .next t ∧
        readReg t d = readReg s r ∧ Frame [d] [] s t) ∧
      (regOfId dst = none ∨ regOfId src = none →
        ∃ t, exec (.movrr dst src) s = .next t ∧ Stopped .invalidRegister s.ip s t)

/-- R112; cut short, R156 (pc at the missing byte: D6, D7). -/
def Obligations.MovmrLoadsTheWord : Prop :=
  ∀ (dst : RegId) (addr : Word),
    (∀ om, encodeWith om (.movmr dst addr) = [om .movmr, dst, highByte addr, lowByte addr]) ∧
    CutShort (.movmr dst addr) ∧
    ∀ s : State,
      (∀ d, regOfId dst = some d → ∃ t, exec (.movmr dst addr) s = .next t ∧
        (readReg t d).toNat = (memRead8 s.mem addr).toNat * 256 + (memRead8 s.mem (addr + 1#16)).toNat ∧
        Frame [d] [] s t) ∧
      (regOfId dst = none → ∃ t, exec (.movmr dst addr) s = .next t ∧ Stopped .invalidRegister s.ip s t)

/-- R113. The stored bytes are at addr and, wrapping, addr + 1. Cut short, R156 (pc at the missing byte: D6, D7). -/
def Obligations.MovrmStoresTheRegister : Prop :=
  ∀ (addr : Word) (src : RegId),
    (∀ om, encodeWith om (.movrm addr src) = [om .movrm, highByte addr, lowByte addr, src]) ∧
    CutShort (.movrm addr src) ∧
    ∀ s : State,
      (∀ r, regOfId src = some r → ∃ t, exec (.movrm addr src) s = .next t ∧
        (memRead8 t.mem addr).toNat = (readReg s r).toNat / 256 ∧
        (memRead8 t.mem (addr + 1#16)).toNat = (readReg s r).toNat % 256 ∧ Frame [] [addr, addr + 1#16] s t) ∧
      (regOfId src = none → ∃ t, exec (.movrm addr src) s = .next t ∧ Stopped .invalidRegister s.ip s t)

/-- R120; cut short, R156 (pc at the missing byte: D6, D7). -/
def Obligations.AddWraps : Prop :=
  ∀ (dst left right : RegId),
    (∀ om, encodeWith om (.add dst left right) = [om .add, dst, left, right]) ∧
    CutShort (.add dst left right) ∧
    ∀ s : State,
      (∀ d l r, regOfId dst = some d → regOfId left = some l → regOfId right = some r →
        ∃ t, exec (.add dst left right) s = .next t ∧
          (readReg t d).toNat = ((readReg s l).toNat + (readReg s r).toNat) % 65536 ∧ Frame [d] [] s t) ∧
      (regOfId dst = none ∨ regOfId left = none ∨ regOfId right = none →
        ∃ t, exec (.add dst left right) s = .next t ∧ Stopped .invalidRegister s.ip s t)

/-- R121; cut short, R156 (pc at the missing byte: D6, D7). -/
def Obligations.SubWraps : Prop :=
  ∀ (dst left right : RegId),
    (∀ om, encodeWith om (.sub dst left right) = [om .sub, dst, left, right]) ∧
    CutShort (.sub dst left right) ∧
    ∀ s : State,
      (∀ d l r, regOfId dst = some d → regOfId left = some l → regOfId right = some r →
        ∃ t, exec (.sub dst left right) s = .next t ∧
          ((readReg t d).toNat : Int) = ((readReg s l).toNat - (readReg s r).toNat : Int) % 65536 ∧
          Frame [d] [] s t) ∧
      (regOfId dst = none ∨ regOfId left = none ∨ regOfId right = none →
        ∃ t, exec (.sub dst left right) s = .next t ∧ Stopped .invalidRegister s.ip s t)

/-- R122; cut short, R156 (pc at the missing byte: D6, D7). -/
def Obligations.MultKeepsTheLowHalf : Prop :=
  ∀ (dst left right : RegId),
    (∀ om, encodeWith om (.mult dst left right) = [om .mult, dst, left, right]) ∧
    CutShort (.mult dst left right) ∧
    ∀ s : State,
      (∀ d l r, regOfId dst = some d → regOfId left = some l → regOfId right = some r →
        ∃ t, exec (.mult dst left right) s = .next t ∧
          (readReg t d).toNat = (readReg s l).toNat * (readReg s r).toNat % 65536 ∧ Frame [d] [] s t) ∧
      (regOfId dst = none ∨ regOfId left = none ∨ regOfId right = none →
        ∃ t, exec (.mult dst left right) s = .next t ∧ Stopped .invalidRegister s.ip s t)

/-- R123, R85 (a zero divisor writes nothing: D5; dst before RE, both from the old sources: D9; cut short, R156: D6, D7). Quotient and remainder are those of
the old operands, RE holds the remainder even where it is dst, and a zero divisor stops with nothing written. -/
def Obligations.DivGivesQuotientAndRemainder : Prop :=
  ∀ (dst left right : RegId),
    (∀ om, encodeWith om (.div dst left right) = [om .div, dst, left, right]) ∧
    CutShort (.div dst left right) ∧
    ∀ s : State,
      (∀ d l r, regOfId dst = some d → regOfId left = some l → regOfId right = some r → readReg s r ≠ 0#16 →
        ∃ t, exec (.div dst left right) s = .next t ∧
          (d ≠ .re → (readReg t d).toNat = (readReg s l).toNat / (readReg s r).toNat) ∧
          t.re.toNat = (readReg s l).toNat % (readReg s r).toNat ∧ Frame [d, .re] [] s t) ∧
      (∀ d l r, regOfId dst = some d → regOfId left = some l → regOfId right = some r → readReg s r = 0#16 →
        ∃ t, exec (.div dst left right) s = .next t ∧ Stopped .divByZero s.ip s t) ∧
      (regOfId dst = none ∨ regOfId left = none ∨ regOfId right = none →
        ∃ t, exec (.div dst left right) s = .next t ∧ Stopped .invalidRegister s.ip s t)

/-- R130 (unsigned: D11; cut short, R156: D6, D7). All 16 bits of CR are written: 0 equal, 1 less, 2 greater. -/
def Obligations.CmpWritesTheThreeWayResult : Prop :=
  ∀ (left right : RegId),
    (∀ om, encodeWith om (.cmp left right) = [om .cmp, left, right]) ∧
    CutShort (.cmp left right) ∧
    ∀ s : State,
      (∀ l r, regOfId left = some l → regOfId right = some r → ∃ t, exec (.cmp left right) s = .next t ∧
        t.cr.toNat = (if (readReg s l).toNat = (readReg s r).toNat then 0
          else if (readReg s l).toNat < (readReg s r).toNat then 1 else 2) ∧ Frame [.cr] [] s t) ∧
      (regOfId left = none ∨ regOfId right = none →
        ∃ t, exec (.cmp left right) s = .next t ∧ Stopped .invalidRegister s.ip s t)

/-- R140; cut short, pc is left at the first missing byte and no jump happens. -/
def Obligations.JmpJumps : Prop :=
  ∀ addr : Word,
    (∀ om, encodeWith om (.jmp addr) = [om .jmp, highByte addr, lowByte addr]) ∧ CutShort (.jmp addr) ∧
    ∀ s : State, ∃ t, exec (.jmp addr) s = .next t ∧ t.ip = addr ∧ Frame [.ip] [] s t

/-- R141; cut short, R156 (pc at the missing byte: D6, D7). -/
def Obligations.JeqJumpsWhenCrIsZero : Prop :=
  ∀ addr : Word,
    (∀ om, encodeWith om (.jeq addr) = [om .jeq, highByte addr, lowByte addr]) ∧ CutShort (.jeq addr) ∧
    ∀ s : State, ∃ t, exec (.jeq addr) s = .next t ∧
      t.ip = (if s.cr.toNat = 0 then addr else s.ip) ∧ Frame [.ip] [] s t

/-- R142; cut short, R156 (pc at the missing byte: D6, D7). -/
def Obligations.JneJumpsWhenCrIsNotZero : Prop :=
  ∀ addr : Word,
    (∀ om, encodeWith om (.jne addr) = [om .jne, highByte addr, lowByte addr]) ∧ CutShort (.jne addr) ∧
    ∀ s : State, ∃ t, exec (.jne addr) s = .next t ∧
      t.ip = (if s.cr.toNat ≠ 0 then addr else s.ip) ∧ Frame [.ip] [] s t

/-- R143; cut short, R156 (pc at the missing byte: D6, D7). -/
def Obligations.JltJumpsWhenCrIsOne : Prop :=
  ∀ addr : Word,
    (∀ om, encodeWith om (.jlt addr) = [om .jlt, highByte addr, lowByte addr]) ∧ CutShort (.jlt addr) ∧
    ∀ s : State, ∃ t, exec (.jlt addr) s = .next t ∧
      t.ip = (if s.cr.toNat = 1 then addr else s.ip) ∧ Frame [.ip] [] s t

/-- R144; cut short, R156 (pc at the missing byte: D6, D7). -/
def Obligations.JleJumpsWhenCrIsZeroOrOne : Prop :=
  ∀ addr : Word,
    (∀ om, encodeWith om (.jle addr) = [om .jle, highByte addr, lowByte addr]) ∧ CutShort (.jle addr) ∧
    ∀ s : State, ∃ t, exec (.jle addr) s = .next t ∧
      t.ip = (if s.cr.toNat = 0 ∨ s.cr.toNat = 1 then addr else s.ip) ∧ Frame [.ip] [] s t

/-- R145; cut short, R156 (pc at the missing byte: D6, D7). -/
def Obligations.JgtJumpsWhenCrIsTwo : Prop :=
  ∀ addr : Word,
    (∀ om, encodeWith om (.jgt addr) = [om .jgt, highByte addr, lowByte addr]) ∧ CutShort (.jgt addr) ∧
    ∀ s : State, ∃ t, exec (.jgt addr) s = .next t ∧
      t.ip = (if s.cr.toNat = 2 then addr else s.ip) ∧ Frame [.ip] [] s t

/-- R146; cut short, R156 (pc at the missing byte: D6, D7). -/
def Obligations.JgeJumpsWhenCrIsZeroOrTwo : Prop :=
  ∀ addr : Word,
    (∀ om, encodeWith om (.jge addr) = [om .jge, highByte addr, lowByte addr]) ∧ CutShort (.jge addr) ∧
    ∀ s : State, ∃ t, exec (.jge addr) s = .next t ∧
      t.ip = (if s.cr.toNat = 0 ∨ s.cr.toNat = 2 then addr else s.ip) ∧ Frame [.ip] [] s t

/-! ### The parameters, and the architectural state -/

/-- R62, R8, R9, R22 (D1, D2; log entry 21): the numbering maps are configuration. Under any opcode map and any register map, an instruction's bytes at pc are executed as the same instruction, each of its
identifiers naming the register the register map says, or none; a byte of no mnemonic is an unknown opcode; and an instruction cut
short stops at its missing byte. -/
def Obligations.MapsOnlyRenumber : Prop :=
  ∀ (om : OpcodeMap) (rm : RegIdMap), Function.Injective om → Function.Injective rm →
    (∀ r, regOfIdWith rm (rm r) = some r) ∧
    (∀ a, regOfId (defaultId rm a) = regOfIdWith rm a) ∧
    (∀ (f : RegId → RegId) (i : Instr), (i.mapRegIds f).mnemonic = i.mnemonic ∧
      (i.mapRegIds f).regIds = i.regIds.map f ∧ ((∀ a ∈ i.regIds, f a = a) → i.mapRegIds f = i)) ∧
    ∀ (s : State) (p : List Byte), s.halted = false → s.program = some p →
      (∀ i, CodeAt p s.ip (encodeWith om i) →
        stepWith om rm s = exec (i.mapRegIds (defaultId rm)) (advancePc s (encodeWith om i).length)) ∧
      (∀ op, p[s.ip.toNat]? = some op → (∀ m, om m ≠ op) →
        ∃ t, stepWith om rm s = .next t ∧ Stopped .unknownOpcode (s.ip + 1#16) s t) ∧
      ∀ (i : Instr) (k : Nat), k < (encodeWith om i).length → CodeAt p s.ip ((encodeWith om i).take k) →
        p[(s.ip + BitVec.ofNat 16 k).toNat]? = none →
        ∃ t, stepWith om rm s = .next t ∧ Stopped .truncatedProgram (s.ip + BitVec.ofNat 16 k) s t

/-- R20, R29, R34: the architectural state is the register file, data memory and the halted flag, and nothing else; under any maps a
step is a function of it and of the buffer bound for the run, which gives the next architectural state and, under any status map
(R10), the number of the status, and leaves the buffer. (The two further fields of State are the interface's: log entries 4, 5.) -/
def Obligations.StepIsAFunctionOfTheArchitecturalState : Prop :=
  (∀ a b : ArchState, a.toRegFile = b.toRegFile → a.mem = b.mem → a.halted = b.halted → a = b) ∧
  ∀ (om : OpcodeMap) (rm : RegIdMap) (s : State) (p : List Byte), s.program = some p →
    ∃ t, stepWith om rm s = .next t ∧
      (∀ sm : StatusMap, archStep sm om rm p s.toArchState = some (sm t.status, t.toArchState)) ∧ t.program = some p

/-- R10, R151 (D3; log entry 3): the status map is configuration. Under any legal one and any other maps, a step with a buffer bound
returns the number of its status: 0 exactly where the machine is not halted after it, and that of HALT where it was halted before
(R88, D17). And a run is R82's loop over those numbers: it goes on after 0 and returns the first that is not, if it comes within the
fuel (log entry 16; the run start it begins with: log entries 15, 17, 20). -/
def Obligations.StatusNumbersFollowTheMap : Prop :=
  ∀ (sm : StatusMap), LegalStatusMap sm → ∀ (om : OpcodeMap) (rm : RegIdMap),
    (∀ s : State, s.program ≠ none →
      ∃ n t, returnOf sm (stepWith om rm s) = some (n, t) ∧ n = sm t.status ∧
        (n = 0 ↔ t.halted = false) ∧ (s.halted = true → n = sm (.stop .halt))) ∧
    (∀ s : State, runLoopWith sm om rm 0 s = none) ∧
    (∀ (fuel : Nat) (s : State), runLoopWith sm om rm (fuel + 1) s =
      (returnOf sm (stepWith om rm s)).bind (fun x => if x.1 = 0 then runLoopWith sm om rm fuel x.2 else some x)) ∧
    ∀ (buffer : List Byte) (s : State), buffer.length ≤ 65536 →
      ∃ u, runStart buffer s = .next u ∧ ∀ fuel, runWith sm om rm buffer fuel s = runLoopWith sm om rm fuel u
end

