-- ==== Sys2Proof/Laws/Decode.lean ====
section
/-! SUPPORT. The maps, the bytes of a word, and the decoder's parts, each said once. -/

namespace Sys2Proof

theorem Mnemonic.mem_all (m : Mnemonic) : m ∈ Mnemonic.all := by cases m <;> decide

theorem Reg.mem_all (r : Reg) : r ∈ Reg.all := by cases r <;> decide

/-- A looked-up mnemonic is one the map gives that byte. -/
theorem mnemonicOf_some {om : OpcodeMap} {op : Byte} {m : Mnemonic} (h : mnemonicOf om op = some m) :
    om m = op := by simpa using List.find?_some h

/-- A byte without a mnemonic is given to none. -/
theorem mnemonicOf_none {om : OpcodeMap} {op : Byte} (h : mnemonicOf om op = none) (m : Mnemonic) :
    om m ≠ op := by
  have := List.find?_eq_none.1 h m m.mem_all
  simpa using this

/-- Under an injective map a mnemonic's own byte looks up to it. -/
theorem mnemonicOf_map {om : OpcodeMap} (hom : Function.Injective om) (m : Mnemonic) :
    mnemonicOf om (om m) = some m := by
  cases h : mnemonicOf om (om m) with
  | none => exact absurd rfl (mnemonicOf_none h m)
  | some m' => rw [hom (mnemonicOf_some h)]

theorem opcodeMap_injective : Function.Injective opcodeMap := by
  intro a b h; revert h; cases a <;> cases b <;> decide

@[simp] theorem mnemonicOf_opcodeMap (m : Mnemonic) : mnemonicOf opcodeMap (opcodeMap m) = some m :=
  mnemonicOf_map opcodeMap_injective m

/-- A looked-up register is one the map gives that identifier. -/
theorem regOfIdWith_some {rm : RegIdMap} {i : RegId} {r : Reg} (h : regOfIdWith rm i = some r) : rm r = i := by
  simpa using List.find?_some h

theorem regOfId_some {i : RegId} {r : Reg} (h : regOfId i = some r) : regIdMap r = i := regOfIdWith_some h

@[simp] theorem regOfId_regIdMap (r : Reg) : regOfId (regIdMap r) = some r := by cases r <;> decide

theorem validReg_iff (i : RegId) : validReg i = true ↔ ∃ r, regOfId i = some r := by
  simp [validReg, Option.isSome_iff_exists]

/-- Under any register map, the default identifier put in an identifier's place names the same register, or none where it named
none. -/
@[simp] theorem defaultId_names (rm : RegIdMap) (i : RegId) : regOfId (defaultId rm i) = regOfIdWith rm i := by
  unfold defaultId
  split
  · simp [*]
  · rename_i h
    by_cases hv : validReg i = true
    · simp only [hv, if_true, h]; decide
    · simp only [hv, Bool.false_eq_true, if_false, h]; simpa [validReg] using hv

/-- Under the default map nothing is renamed. -/
@[simp] theorem defaultId_regIdMap (i : RegId) : defaultId regIdMap i = i := by
  unfold defaultId
  cases h : regOfIdWith regIdMap i with
  | some r => exact regOfIdWith_some h
  | none => simp [validReg, regOfId, h]

@[simp] theorem mapRegIds_regIdMap (i : Instr) : i.mapRegIds (defaultId regIdMap) = i := by
  cases i <;> simp [Instr.mapRegIds]

/-- The number a composed word is (R64, R43). -/
theorem toNat_wordOfBytes (h l : Byte) : (wordOfBytes h l).toNat = h.toNat * 256 + l.toNat := by
  simp only [wordOfBytes, BitVec.toNat_append]
  rw [← Nat.shiftLeft_add_eq_or_of_lt l.isLt, Nat.shiftLeft_eq]

theorem toNat_highByte (w : Word) : (highByte w).toNat = w.toNat / 256 := by
  have := w.isLt
  simp only [highByte, BitVec.extractLsb'_toNat, Nat.shiftRight_eq_div_pow]
  omega

theorem toNat_lowByte (w : Word) : (lowByte w).toNat = w.toNat % 256 := by
  simp [lowByte]

@[simp] theorem highByte_wordOfBytes (h l : Byte) : highByte (wordOfBytes h l) = h := by
  apply BitVec.eq_of_toNat_eq
  have := l.isLt
  rw [toNat_highByte, toNat_wordOfBytes]
  omega

@[simp] theorem lowByte_wordOfBytes (h l : Byte) : lowByte (wordOfBytes h l) = l := by
  apply BitVec.eq_of_toNat_eq
  have := l.isLt
  rw [toNat_lowByte, toNat_wordOfBytes]
  omega

@[simp] theorem wordOfBytes_high_low (w : Word) : wordOfBytes (highByte w) (lowByte w) = w := by
  apply BitVec.eq_of_toNat_eq
  rw [toNat_wordOfBytes, toNat_highByte, toNat_lowByte]
  omega

/-- Parsing the operands of an instruction gives it back. -/
theorem parseOperands_operandsOf (i : Instr) (rest : List Byte) :
    parseOperands i.mnemonic (operandsOf i ++ rest) = .instr i rest := by
  cases i <;> simp [parseOperands, operandsOf, Instr.mnemonic, parseRW, parseWR, parseRR, parseRRR, parseW]

/-- Operand bytes of the right number always parse, to an instruction that has exactly those operands. -/
theorem parseOperands_exact (m : Mnemonic) (bs : List Byte) (h : bs.length = operandBytes (formatOf m)) :
    ∃ i, parseOperands m bs = .instr i [] ∧ i.mnemonic = m ∧ operandsOf i = bs := by
  have h0 : bs.length = 0 → bs = [] := List.length_eq_zero_iff.1
  have h2 : bs.length = 2 → ∃ a b, bs = [a, b] := List.length_eq_two.1
  have h3 : bs.length = 3 → ∃ a b c, bs = [a, b, c] := List.length_eq_three.1
  cases m <;> simp only [formatOf, operandBytes] at h <;>
    first
    | (obtain rfl := h0 h; exact ⟨_, rfl, rfl, rfl⟩)
    | (obtain ⟨a, b, rfl⟩ := h2 h; exact ⟨_, rfl, rfl, by simp [operandsOf]⟩)
    | (obtain ⟨a, b, c, rfl⟩ := h3 h; exact ⟨_, rfl, rfl, by simp [operandsOf]⟩)

/-- Under any opcode map, an opcode byte with as many operand bytes as it asks for is an unknown opcode or an instruction of
exactly those bytes. -/
theorem decodeWith_exact (om : OpcodeMap) (op : Byte) (bs : List Byte) (h : bs.length = operandCount om op) :
    (mnemonicOf om op = none ∧ decodeWith om (op :: bs) = .unknownOpcode op) ∨
      ∃ i, decodeWith om (op :: bs) = .instr i [] ∧ encodeWith om i = op :: bs := by
  cases hm : mnemonicOf om op with
  | none => exact .inl ⟨rfl, by simp [decodeWith, hm]⟩
  | some m =>
    obtain ⟨i, hi, him, hio⟩ := parseOperands_exact m bs (by simpa [operandCount, hm] using h)
    refine .inr ⟨i, by simp [decodeWith, hm, hi], ?_⟩
    rw [encodeWith, hio, him, mnemonicOf_some hm]

theorem decode_exact (op : Byte) (bs : List Byte) (h : bs.length = operandCount opcodeMap op) :
    (mnemonicOf opcodeMap op = none ∧ decode (op :: bs) = .unknownOpcode op) ∨
      ∃ i, decode (op :: bs) = .instr i [] ∧ encode i = op :: bs := decodeWith_exact opcodeMap op bs h

/-- The number of operand bytes of an instruction. -/
theorem operandsOf_length (i : Instr) : (operandsOf i).length = operandBytes (formatOf i.mnemonic) := by
  cases i <;> rfl

@[simp] theorem operandCount_opcodeMap (m : Mnemonic) :
    operandCount opcodeMap (opcodeMap m) = operandBytes (formatOf m) := by simp [operandCount]

end Sys2Proof
end

