-- ==== Sys2Proof/Laws/Fetch.lean ====
section
/-! SUPPORT. What the fetch unit does, said once. -/

namespace Sys2Proof.Machine

@[simp] theorem advancePc_ip (s : State) (n : Nat) : (advancePc s n).ip = s.ip + BitVec.ofNat 16 n := rfl
@[simp] theorem advancePc_re (s : State) (n : Nat) : (advancePc s n).re = s.re := rfl
@[simp] theorem advancePc_cr (s : State) (n : Nat) : (advancePc s n).cr = s.cr := rfl
@[simp] theorem advancePc_halted (s : State) (n : Nat) : (advancePc s n).halted = s.halted := rfl
@[simp] theorem advancePc_mem (s : State) (n : Nat) : (advancePc s n).mem = s.mem := rfl
@[simp] theorem advancePc_program (s : State) (n : Nat) : (advancePc s n).program = s.program := rfl
@[simp] theorem advancePc_status (s : State) (n : Nat) : (advancePc s n).status = s.status := rfl

@[simp] theorem advancePc_zero (s : State) : advancePc s 0 = s := by simp [advancePc]

/-- Moving `pc` twice is moving it by the sum. -/
@[simp] theorem advancePc_advancePc (s : State) (m n : Nat) :
    advancePc (advancePc s m) n = advancePc s (m + n) := by
  simp [advancePc, BitVec.add_assoc, BitVec.ofNat_add]

/-- A fetch changes no register but `pc`. -/
theorem readReg_advancePc (s : State) (n : Nat) (r : Reg) (h : r ≠ .ip) :
    readReg (advancePc s n) r = readReg s r := by
  cases r <;> first | rfl | exact absurd rfl h

@[simp] theorem Fetched.bind_done {α β : Type} (a : α) (s : State) (f : α → State → Fetched β) :
    (Fetched.done a s).bind f = f a s := rfl
@[simp] theorem Fetched.bind_truncated {α β : Type} (s : State) (f : α → State → Fetched β) :
    (Fetched.truncated s : Fetched α).bind f = .truncated s := rfl
@[simp] theorem Fetched.bind_unbound {α β : Type} (f : α → State → Fetched β) :
    (Fetched.unbound : Fetched α).bind f = .unbound := rfl

theorem fetch8_done {s : State} {p : List Byte} {b : Byte} (hp : s.program = some p)
    (hb : p[s.ip.toNat]? = some b) : fetch8 s = .done b (advancePc s 1) := by
  simp [fetch8, hp, hb]

theorem fetch8_truncated {s : State} {p : List Byte} (hp : s.program = some p)
    (hb : p[s.ip.toNat]? = none) : fetch8 s = .truncated s := by
  simp [fetch8, hp, hb]

theorem fetch8_unbound {s : State} (hp : s.program = none) : fetch8 s = .unbound := by
  simp [fetch8, hp]

/-- Fetching the bytes that lie at `pc` gives them and moves `pc` past them. -/
theorem fetchBytes_done {p : List Byte} (bs : List Byte) : ∀ {s : State}, s.program = some p →
    CodeAt p s.ip bs → fetchBytes bs.length s = .done bs (advancePc s bs.length) := by
  induction bs with
  | nil => intro s _ _; simp [fetchBytes]
  | cons b bs ih =>
    intro s hp h
    have h' := ih (s := advancePc s 1) hp h.2
    simp only [List.length_cons, fetchBytes, fetch8_done hp h.1, Fetched.bind_done, h',
      advancePc_advancePc, Nat.add_comm 1]

/-- The address after `n + 1` bytes is that after `n` bytes from the next one. -/
theorem address_succ (a : Word) (n : Nat) :
    a + BitVec.ofNat 16 (n + 1) = (a + 1#16) + BitVec.ofNat 16 n := by
  rw [Nat.add_comm, BitVec.ofNat_add, ← BitVec.add_assoc]

/-- Fetching more bytes than lie at `pc` stops at the first missing one, with `pc` there. -/
theorem fetchBytes_truncated {p : List Byte} (bs : List Byte) : ∀ {s : State} {n : Nat}, s.program = some p →
    CodeAt p s.ip bs → p[(s.ip + BitVec.ofNat 16 bs.length).toNat]? = none → bs.length < n →
    fetchBytes n s = .truncated (advancePc s bs.length) := by
  induction bs with
  | nil =>
    intro s n hp _ hn hlt
    obtain ⟨m, rfl⟩ := Nat.exists_eq_succ_of_ne_zero (Nat.ne_of_gt hlt)
    have hn' : p[s.ip.toNat]? = none := by simpa using hn
    simp [fetchBytes, fetch8_truncated hp hn']
  | cons b bs ih =>
    intro s n hp h hn hlt
    obtain ⟨m, rfl⟩ := Nat.exists_eq_succ_of_ne_zero (Nat.ne_of_gt (Nat.zero_lt_of_lt hlt))
    rw [List.length_cons, address_succ] at hn
    have h' := ih (s := advancePc s 1) (n := m) hp h.2 hn (by simpa using hlt)
    simp only [fetchBytes, fetch8_done hp h.1, Fetched.bind_done, h', Fetched.bind_truncated,
      advancePc_advancePc, List.length_cons, Nat.add_comm 1]

/-- Every outcome of fetching `n` bytes from a bound buffer: all of them, or those before the first missing one. -/
theorem fetchBytes_cases {p : List Byte} (n : Nat) : ∀ {s : State}, s.program = some p →
    (∃ bs : List Byte, bs.length = n ∧ CodeAt p s.ip bs ∧ fetchBytes n s = .done bs (advancePc s n)) ∨
      ∃ bs : List Byte, bs.length < n ∧ CodeAt p s.ip bs ∧
        p[(s.ip + BitVec.ofNat 16 bs.length).toNat]? = none ∧
        fetchBytes n s = .truncated (advancePc s bs.length) := by
  induction n with
  | zero => intro s _; exact .inl ⟨[], rfl, trivial, by simp [fetchBytes]⟩
  | succ n ih =>
    intro s hp
    cases hb : p[s.ip.toNat]? with
    | none =>
      have hn : p[(s.ip + BitVec.ofNat 16 ([] : List Byte).length).toNat]? = none := by simpa using hb
      exact .inr ⟨[], Nat.succ_pos n, trivial, hn, fetchBytes_truncated [] hp trivial hn (Nat.succ_pos n)⟩
    | some b =>
      rcases ih (s := advancePc s 1) hp with ⟨bs, hl, hc, _⟩ | ⟨bs, hl, hc, hn, _⟩
      · have hc' : CodeAt p s.ip (b :: bs) := ⟨hb, hc⟩
        have hl' : (b :: bs).length = n + 1 := by simp [hl]
        exact .inl ⟨b :: bs, hl', hc', by simpa only [hl'] using fetchBytes_done (b :: bs) hp hc'⟩
      · have hc' : CodeAt p s.ip (b :: bs) := ⟨hb, hc⟩
        have hl' : (b :: bs).length < n + 1 := by simpa using hl
        have hn' : p[(s.ip + BitVec.ofNat 16 (b :: bs).length).toNat]? = none := by
          rw [List.length_cons, address_succ]; exact hn
        exact .inr ⟨b :: bs, hl', hc', hn', fetchBytes_truncated (b :: bs) hp hc' hn' hl'⟩

/-- With no buffer bound, the instruction fetch has nothing to read. -/
theorem fetchInstrWith_unbound (om : OpcodeMap) {s : State} (hp : s.program = none) : fetchInstrWith om s = .unbound := by
  simp [fetchInstrWith, fetch8_unbound hp]

/-- The instruction fetch where the opcode byte is missing. -/
theorem fetchInstrWith_no_opcode (om : OpcodeMap) {s : State} {p : List Byte} (hp : s.program = some p)
    (hb : p[s.ip.toNat]? = none) : fetchInstrWith om s = .raised .truncatedProgram s := by
  simp [fetchInstrWith, fetch8_truncated hp hb]

/-- The instruction fetch where the opcode and as many operand bytes as it asks for lie at `pc`. -/
theorem fetchInstrWith_done (om : OpcodeMap) {s : State} {p : List Byte} {op : Byte} {bs : List Byte} (hp : s.program = some p)
    (h : CodeAt p s.ip (op :: bs)) (hl : bs.length = operandCount om op) :
    fetchInstrWith om s = decodeFetched om (op :: bs) (advancePc s (op :: bs).length) := by
  have h' := fetchBytes_done bs (s := advancePc s 1) hp h.2
  simp only [fetchInstrWith, fetch8_done hp h.1, Fetched.bind_done, ← hl, h', advancePc_advancePc,
    List.length_cons, Nat.add_comm 1]

/-- The instruction fetch where an operand byte is missing. -/
theorem fetchInstrWith_cut (om : OpcodeMap) {s : State} {p : List Byte} {op : Byte} {bs : List Byte} (hp : s.program = some p)
    (h : CodeAt p s.ip (op :: bs)) (hl : bs.length < operandCount om op)
    (hn : p[(s.ip + BitVec.ofNat 16 (op :: bs).length).toNat]? = none) :
    fetchInstrWith om s = .raised .truncatedProgram (advancePc s (op :: bs).length) := by
  rw [List.length_cons, address_succ] at hn
  have h' := fetchBytes_truncated bs (s := advancePc s 1) hp h.2 hn hl
  simp only [fetchInstrWith, fetch8_done hp h.1, Fetched.bind_done, h', Fetched.bind_truncated,
    advancePc_advancePc, List.length_cons, Nat.add_comm 1]

/-- Every outcome of the instruction fetch on a bound buffer. -/
theorem fetchInstrWith_cases (om : OpcodeMap) {s : State} {p : List Byte} (hp : s.program = some p) :
    (p[s.ip.toNat]? = none ∧ fetchInstrWith om s = .raised .truncatedProgram s) ∨
    (∃ op bs, CodeAt p s.ip (op :: bs) ∧ bs.length < operandCount om op ∧
        p[(s.ip + BitVec.ofNat 16 (op :: bs).length).toNat]? = none ∧
        fetchInstrWith om s = .raised .truncatedProgram (advancePc s (op :: bs).length)) ∨
    ∃ op bs, CodeAt p s.ip (op :: bs) ∧ bs.length = operandCount om op ∧
        fetchInstrWith om s = decodeFetched om (op :: bs) (advancePc s (op :: bs).length) := by
  cases hb : p[s.ip.toNat]? with
  | none => exact .inl ⟨rfl, fetchInstrWith_no_opcode om hp hb⟩
  | some op =>
    rcases fetchBytes_cases (operandCount om op) (s := advancePc s 1) hp with
      ⟨bs, hl, hc, _⟩ | ⟨bs, hl, hc, hn, _⟩
    · exact .inr (.inr ⟨op, bs, ⟨hb, hc⟩, hl, fetchInstrWith_done om hp ⟨hb, hc⟩ hl⟩)
    · have hn' : p[(s.ip + BitVec.ofNat 16 (op :: bs).length).toNat]? = none := by
        rw [List.length_cons, address_succ]; exact hn
      exact .inr (.inl ⟨op, bs, ⟨hb, hc⟩, hl, hn', fetchInstrWith_cut om hp ⟨hb, hc⟩ hl hn'⟩)

/-! The same under the default map. -/

theorem fetchInstr_unbound {s : State} (hp : s.program = none) : fetchInstr s = .unbound :=
  fetchInstrWith_unbound opcodeMap hp

theorem fetchInstr_no_opcode {s : State} {p : List Byte} (hp : s.program = some p)
    (hb : p[s.ip.toNat]? = none) : fetchInstr s = .raised .truncatedProgram s :=
  fetchInstrWith_no_opcode opcodeMap hp hb

theorem fetchInstr_done {s : State} {p : List Byte} {op : Byte} {bs : List Byte} (hp : s.program = some p)
    (h : CodeAt p s.ip (op :: bs)) (hl : bs.length = operandCount opcodeMap op) :
    fetchInstr s = decodeFetched opcodeMap (op :: bs) (advancePc s (op :: bs).length) :=
  fetchInstrWith_done opcodeMap hp h hl

theorem fetchInstr_cut {s : State} {p : List Byte} {op : Byte} {bs : List Byte} (hp : s.program = some p)
    (h : CodeAt p s.ip (op :: bs)) (hl : bs.length < operandCount opcodeMap op)
    (hn : p[(s.ip + BitVec.ofNat 16 (op :: bs).length).toNat]? = none) :
    fetchInstr s = .raised .truncatedProgram (advancePc s (op :: bs).length) :=
  fetchInstrWith_cut opcodeMap hp h hl hn

theorem fetchInstr_cases {s : State} {p : List Byte} (hp : s.program = some p) :
    (p[s.ip.toNat]? = none ∧ fetchInstr s = .raised .truncatedProgram s) ∨
    (∃ op bs, CodeAt p s.ip (op :: bs) ∧ bs.length < operandCount opcodeMap op ∧
        p[(s.ip + BitVec.ofNat 16 (op :: bs).length).toNat]? = none ∧
        fetchInstr s = .raised .truncatedProgram (advancePc s (op :: bs).length)) ∨
    ∃ op bs, CodeAt p s.ip (op :: bs) ∧ bs.length = operandCount opcodeMap op ∧
        fetchInstr s = decodeFetched opcodeMap (op :: bs) (advancePc s (op :: bs).length) :=
  fetchInstrWith_cases opcodeMap hp

end Sys2Proof.Machine
end

