-- ==== Sys2Proof/Laws/Flags.lean ====
section
/-! SUPPORT. The comparison and the jump conditions as facts about numbers (R130, R147). -/

namespace Sys2Proof.Machine

/-- A word is a small number exactly when it is the literal. -/
theorem word_eq_iff (w : Word) (n : Nat) (h : n < 65536) : w = BitVec.ofNat 16 n ↔ w.toNat = n := by
  rw [← BitVec.toNat_inj, BitVec.toNat_ofNat, Nat.mod_eq_of_lt h]

theorem condEq_iff (cr : Word) : condEq cr = true ↔ cr.toNat = 0 :=
  decide_eq_true_iff.trans (word_eq_iff cr 0 (by decide))

theorem condNe_iff (cr : Word) : condNe cr = true ↔ cr.toNat ≠ 0 :=
  decide_eq_true_iff.trans (not_congr (word_eq_iff cr 0 (by decide)))

theorem condLt_iff (cr : Word) : condLt cr = true ↔ cr.toNat = 1 :=
  decide_eq_true_iff.trans (word_eq_iff cr 1 (by decide))

theorem condLe_iff (cr : Word) : condLe cr = true ↔ cr.toNat = 0 ∨ cr.toNat = 1 :=
  decide_eq_true_iff.trans (or_congr (word_eq_iff cr 0 (by decide)) (word_eq_iff cr 1 (by decide)))

theorem condGt_iff (cr : Word) : condGt cr = true ↔ cr.toNat = 2 :=
  decide_eq_true_iff.trans (word_eq_iff cr 2 (by decide))

theorem condGe_iff (cr : Word) : condGe cr = true ↔ cr.toNat = 0 ∨ cr.toNat = 2 :=
  decide_eq_true_iff.trans (or_congr (word_eq_iff cr 0 (by decide)) (word_eq_iff cr 2 (by decide)))

theorem toNat_compareWords (a b : Word) :
    (compareWords a b).toNat =
      if a.toNat = b.toNat then 0 else if a.toNat < b.toNat then 1 else 2 := by
  simp only [compareWords, BitVec.toNat_inj]
  split
  · rfl
  · split <;> rfl

end Sys2Proof.Machine
end

