-- ==== Sys2Proof/Laws/Memory.lean ====
section
/-! SUPPORT. What a read gives after a write, and that every memory operation keeps the canonical form. -/

namespace Sys2Proof.Machine

@[simp] theorem readCell_nil (a : Nat) : readCell [] a = Config.unlistedByte := rfl

theorem readCell_eraseCell (m : Memory) (a c : Nat) :
    readCell (eraseCell m a) c = if c = a then Config.unlistedByte else readCell m c := by
  induction m with
  | nil => simp [eraseCell]
  | cons x m ih =>
    obtain ⟨k, v⟩ := x
    by_cases hk : k = a
    · subst hk
      simp only [eraseCell, if_true, ih, readCell]
      by_cases hc : c = k
      · simp [hc]
      · simp [hc, Ne.symm hc]
    · simp only [eraseCell, hk, if_false, readCell, ih]
      by_cases hc : k = c
      · subst hc; simp [hk]
      · simp [hc]

/-- An address put into memory reads as put, wherever its cell lands, if it had no cell. -/
theorem readCell_insertCell (m : Memory) (a c : Nat) (b : Byte) (h : readCell m a = Config.unlistedByte)
    (hm : ∀ x ∈ m, x.1 ≠ a) :
    readCell (insertCell m a b) c = if c = a then b else readCell m c := by
  induction m with
  | nil =>
    simp only [insertCell, readCell]
    by_cases hc : c = a
    · simp [hc]
    · simp [hc, Ne.symm hc]
  | cons x m ih =>
    obtain ⟨k, v⟩ := x
    have hk : k ≠ a := hm (k, v) (by simp)
    have ha : readCell m a = Config.unlistedByte := by simpa [readCell, hk] using h
    have hm' : ∀ x ∈ m, x.1 ≠ a := fun x hx => hm x (by simp [hx])
    by_cases hlt : a < k
    · simp only [insertCell, hlt, if_true]
      rw [readCell]
      by_cases hc : c = a
      · simp [hc]
      · simp [hc, Ne.symm hc]
    · simp only [insertCell, hlt, if_false, readCell, ih ha hm']
      by_cases hc : k = c
      · subst hc; simp [hk]
      · simp [hc]

theorem eraseCell_no_cell (m : Memory) (a : Nat) : ∀ x ∈ eraseCell m a, x.1 ≠ a := by
  induction m with
  | nil => simp [eraseCell]
  | cons x m ih =>
    obtain ⟨k, v⟩ := x
    by_cases hk : k = a
    · simpa [eraseCell, hk] using ih
    · simpa [eraseCell, hk] using ih

/-- A byte reads as last written, and every other address as before. It needs no premise on the memory. -/
theorem readCell_writeCell (m : Memory) (a c : Nat) (b : Byte) :
    readCell (writeCell m a b) c = if c = a then b else readCell m c := by
  unfold writeCell
  split
  · rename_i hb; simp [readCell_eraseCell, hb]
  · rw [readCell_insertCell _ _ _ _ (by simp [readCell_eraseCell]) (eraseCell_no_cell m a)]
    by_cases hc : c = a <;> simp [hc, readCell_eraseCell]

@[simp] theorem memRead8_memWrite8 (m : Memory) (a c : Word) (b : Byte) :
    memRead8 (memWrite8 m a b) c = if c = a then b else memRead8 m c := by
  simp [memRead8, memWrite8, readCell_writeCell, BitVec.toNat_inj]

theorem memRead8_memWrite16 (m : Memory) (a c : Word) (v : Word) :
    memRead8 (memWrite16 m a v) c =
      if c = a + 1#16 then lowByte v else if c = a then highByte v else memRead8 m c := by
  simp [memWrite16]

/-! ### The canonical form -/

theorem eraseCell_subset (m : Memory) (a : Nat) : ∀ x ∈ eraseCell m a, x ∈ m := by
  induction m with
  | nil => simp [eraseCell]
  | cons x m ih =>
    obtain ⟨k, v⟩ := x
    intro y hy
    by_cases hk : k = a
    · exact List.mem_cons_of_mem _ (ih y (by simpa [eraseCell, hk] using hy))
    · rcases List.mem_cons.1 (by simpa [eraseCell, hk] using hy) with h | h
      · simp [h]
      · exact List.mem_cons_of_mem _ (ih y h)

theorem eraseCell_sorted (m : Memory) (a : Nat) (h : m.Pairwise (fun c d => c.1 < d.1)) :
    (eraseCell m a).Pairwise (fun c d => c.1 < d.1) := by
  induction m with
  | nil => simp [eraseCell]
  | cons x m ih =>
    obtain ⟨k, v⟩ := x
    obtain ⟨hx, hm⟩ := List.pairwise_cons.1 h
    by_cases hk : k = a
    · simpa [eraseCell, hk] using ih hm
    · simp only [eraseCell, hk, if_false]
      exact List.pairwise_cons.2 ⟨fun y hy => hx y (eraseCell_subset m a y hy), ih hm⟩

theorem insertCell_mem (m : Memory) (a : Nat) (b : Byte) :
    ∀ x ∈ insertCell m a b, x = (a, b) ∨ x ∈ m := by
  induction m with
  | nil => simp [insertCell]
  | cons y m ih =>
    obtain ⟨k, v⟩ := y
    intro x hx
    by_cases hlt : a < k
    · simpa [insertCell, hlt] using hx
    · rcases List.mem_cons.1 (by simpa [insertCell, hlt] using hx) with h | h
      · exact .inr (by simp [h])
      · rcases ih x h with h | h
        · exact .inl h
        · exact .inr (List.mem_cons_of_mem _ h)

theorem insertCell_sorted (m : Memory) (a : Nat) (b : Byte) (h : m.Pairwise (fun c d => c.1 < d.1))
    (hm : ∀ x ∈ m, x.1 ≠ a) : (insertCell m a b).Pairwise (fun c d => c.1 < d.1) := by
  induction m with
  | nil => simp [insertCell]
  | cons y m ih =>
    obtain ⟨k, v⟩ := y
    obtain ⟨hy, hp⟩ := List.pairwise_cons.1 h
    have hk : k ≠ a := hm (k, v) (by simp)
    by_cases hlt : a < k
    · simp only [insertCell, hlt, if_true]
      refine List.pairwise_cons.2 ⟨fun x hx => ?_, h⟩
      rcases List.mem_cons.1 hx with rfl | hx
      · exact hlt
      · exact lt_trans hlt (hy x hx)
    · simp only [insertCell, hlt, if_false]
      refine List.pairwise_cons.2 ⟨fun x hx => ?_, ih hp (fun x hx => hm x (by simp [hx]))⟩
      rcases insertCell_mem m a b x hx with rfl | hx
      · change k < a; omega
      · exact hy x hx

/-- The canonical form, as three facts. -/
theorem Memory.wf_iff (m : Memory) : Memory.wf m = true ↔
    m.Pairwise (fun c d => c.1 < d.1) ∧
      ∀ x ∈ m, x.1 < Config.spaceSize ∧ x.2 ≠ Config.unlistedByte := by
  simp [Memory.wf]

theorem writeCell_wf (m : Memory) (a : Nat) (b : Byte) (ha : a < Config.spaceSize)
    (h : Memory.wf m = true) : Memory.wf (writeCell m a b) = true := by
  obtain ⟨hs, hc⟩ := (Memory.wf_iff m).1 h
  have he := eraseCell_sorted m a hs
  refine (Memory.wf_iff _).2 ?_
  unfold writeCell
  split
  · exact ⟨he, fun x hx => hc x (eraseCell_subset m a x hx)⟩
  · rename_i hb
    refine ⟨insertCell_sorted _ a b he (eraseCell_no_cell m a), fun x hx => ?_⟩
    rcases insertCell_mem _ a b x hx with rfl | hx
    · exact ⟨ha, hb⟩
    · exact hc x (eraseCell_subset m a x hx)

theorem memWrite8_wf (m : Memory) (a : Word) (b : Byte) (h : Memory.wf m = true) :
    Memory.wf (memWrite8 m a b) = true := writeCell_wf m _ b a.isLt h

theorem memWrite16_wf (m : Memory) (a : Word) (v : Word) (h : Memory.wf m = true) :
    Memory.wf (memWrite16 m a v) = true := memWrite8_wf _ _ _ (memWrite8_wf _ _ _ h)

theorem memWrite32_wf (m : Memory) (a : Word) (v : DWord) (h : Memory.wf m = true) :
    Memory.wf (memWrite32 m a v) = true := memWrite16_wf _ _ _ (memWrite16_wf _ _ _ h)

theorem memWriteBytes_wf (bs : List Byte) : ∀ (m : Memory) (c : Word), Memory.wf m = true →
    Memory.wf (memWriteBytes m c bs) = true := by
  induction bs with
  | nil => intro m c h; exact h
  | cons b bs ih => intro m c h; exact ih _ _ (memWrite8_wf _ _ _ h)

/-- The memory of the reset state is in the canonical form. -/
theorem reset_mem_wf : Memory.wf State.reset.mem = true := by decide

end Sys2Proof.Machine
end

