-- ==== Sys2Proof/Laws/State.lean ====
section
/-! SUPPORT. The small lemmas of the state: one per field per update. -/

namespace Sys2Proof.Machine

@[simp] theorem readReg_ip (s : State) : readReg s .ip = s.ip := rfl
@[simp] theorem readReg_re (s : State) : readReg s .re = s.re := rfl
@[simp] theorem readReg_cr (s : State) : readReg s .cr = s.cr := rfl
@[simp] theorem readReg_r1 (s : State) : readReg s .r1 = s.r1 := rfl
@[simp] theorem readReg_r2 (s : State) : readReg s .r2 = s.r2 := rfl
@[simp] theorem readReg_r3 (s : State) : readReg s .r3 = s.r3 := rfl
@[simp] theorem readReg_r4 (s : State) : readReg s .r4 = s.r4 := rfl

/-- A register reads as written, and every other register as before (R21). -/
theorem readReg_writeReg (s : State) (r q : Reg) (v : Word) :
    readReg (writeReg s r v) q = if q = r then v else readReg s q := by
  cases r <;> cases q <;> rfl

@[simp] theorem readReg_writeReg_same (s : State) (r : Reg) (v : Word) :
    readReg (writeReg s r v) r = v := by simp [readReg_writeReg]

@[simp] theorem readReg_writeReg_other (s : State) {r q : Reg} (v : Word) (h : q ≠ r) :
    readReg (writeReg s r v) q = readReg s q := by simp [readReg_writeReg, h]

@[simp] theorem writeReg_halted (s : State) (r : Reg) (v : Word) : (writeReg s r v).halted = s.halted := by
  cases r <;> rfl
@[simp] theorem writeReg_mem (s : State) (r : Reg) (v : Word) : (writeReg s r v).mem = s.mem := by
  cases r <;> rfl
@[simp] theorem writeReg_program (s : State) (r : Reg) (v : Word) : (writeReg s r v).program = s.program := by
  cases r <;> rfl
@[simp] theorem writeReg_status (s : State) (r : Reg) (v : Word) : (writeReg s r v).status = s.status := by
  cases r <;> rfl

@[simp] theorem readReg_complete (s : State) (r : Reg) : readReg (complete s) r = readReg s r := by
  cases r <;> rfl
@[simp] theorem complete_ip (s : State) : (complete s).ip = s.ip := rfl
@[simp] theorem complete_re (s : State) : (complete s).re = s.re := rfl
@[simp] theorem complete_cr (s : State) : (complete s).cr = s.cr := rfl
@[simp] theorem complete_halted (s : State) : (complete s).halted = s.halted := rfl
@[simp] theorem complete_mem (s : State) : (complete s).mem = s.mem := rfl
@[simp] theorem complete_program (s : State) : (complete s).program = s.program := rfl
@[simp] theorem complete_status (s : State) : (complete s).status = .continues := rfl

@[simp] theorem readReg_raise (c : Cause) (s : State) (r : Reg) : readReg (raise c s) r = readReg s r := by
  cases r <;> rfl
@[simp] theorem raise_ip (c : Cause) (s : State) : (raise c s).ip = s.ip := rfl
@[simp] theorem raise_re (c : Cause) (s : State) : (raise c s).re = s.re := rfl
@[simp] theorem raise_cr (c : Cause) (s : State) : (raise c s).cr = s.cr := rfl
@[simp] theorem raise_halted (c : Cause) (s : State) : (raise c s).halted = true := rfl
@[simp] theorem raise_mem (c : Cause) (s : State) : (raise c s).mem = s.mem := rfl
@[simp] theorem raise_program (c : Cause) (s : State) : (raise c s).program = s.program := rfl
@[simp] theorem raise_status (c : Cause) (s : State) : (raise c s).status = .stop c := rfl

@[simp] theorem readReg_haltedStep (s : State) (r : Reg) : readReg (haltedStep s) r = readReg s r := by
  cases r <;> rfl
@[simp] theorem haltedStep_halted (s : State) : (haltedStep s).halted = s.halted := rfl
@[simp] theorem haltedStep_mem (s : State) : (haltedStep s).mem = s.mem := rfl
@[simp] theorem haltedStep_program (s : State) : (haltedStep s).program = s.program := rfl
@[simp] theorem haltedStep_status (s : State) : (haltedStep s).status = .stop .halt := rfl

@[simp] theorem returnOf_next (sm : StatusMap) (t : State) : returnOf sm (.next t) = some (sm t.status, t) := rfl
@[simp] theorem returnOf_fault (sm : StatusMap) (r : Fault) : returnOf sm (.fault r) = none := rfl
@[simp] theorem returnOf_refused (sm : StatusMap) (r : Refusal) : returnOf sm (.refused r) = none := rfl

@[simp] theorem setPc_ip (s : State) (a : Word) : (setPc s a).ip = a := rfl
@[simp] theorem setPc_halted (s : State) (a : Word) : (setPc s a).halted = s.halted := rfl
@[simp] theorem setPc_mem (s : State) (a : Word) : (setPc s a).mem = s.mem := rfl
@[simp] theorem setPc_program (s : State) (a : Word) : (setPc s a).program = s.program := rfl

/-- Writing `pc` changes no other register (R24). -/
theorem readReg_setPc (s : State) (a : Word) (r : Reg) :
    readReg (setPc s a) r = if r = .ip then a else readReg s r := readReg_writeReg s .ip r a

end Sys2Proof.Machine
end

