-- ==== Sys2Proof/Laws/Operands.lean ====
section
/-! SUPPORT. The register check said once, and everything `exec` can answer said once. -/

namespace Sys2Proof.Machine

@[simp] theorem withReg_some {a : RegId} {r : Reg} (s : State) (k : Reg → Result)
    (h : regOfId a = some r) : withReg a s k = k r := by simp [withReg, h]

@[simp] theorem withReg_none {a : RegId} (s : State) (k : Reg → Result) (h : regOfId a = none) :
    withReg a s k = .next (raise .invalidRegister s) := by simp [withReg, h]

/-- One checked operand: it is invalid and the cause is raised, or it names a register and the rest goes on. -/
theorem withReg_cases (a : RegId) (s : State) (k : Reg → Result) :
    (regOfId a = none ∧ withReg a s k = .next (raise .invalidRegister s)) ∨
      ∃ r, regOfId a = some r ∧ withReg a s k = k r := by
  cases h : regOfId a with
  | none => exact .inl ⟨rfl, withReg_none s k h⟩
  | some r => exact .inr ⟨r, rfl, withReg_some s k h⟩

@[simp] theorem withRegs2_some {a b : RegId} {ra rb : Reg} (s : State) (k : Reg → Reg → Result)
    (ha : regOfId a = some ra) (hb : regOfId b = some rb) : withRegs2 a b s k = k ra rb := by
  simp [withRegs2, ha, hb]

theorem withRegs2_none {a b : RegId} (s : State) (k : Reg → Reg → Result)
    (h : regOfId a = none ∨ regOfId b = none) :
    withRegs2 a b s k = .next (raise .invalidRegister s) := by
  unfold withRegs2
  rcases withReg_cases a s (fun ra => withReg b s (fun rb => k ra rb)) with ⟨_, e⟩ | ⟨ra, hra, e⟩
  · exact e
  · rw [e, withReg_none]; rcases h with h | h
    · simp [h] at hra
    · exact h

@[simp] theorem withRegs3_some {a b c : RegId} {ra rb rc : Reg} (s : State) (k : Reg → Reg → Reg → Result)
    (ha : regOfId a = some ra) (hb : regOfId b = some rb) (hc : regOfId c = some rc) :
    withRegs3 a b c s k = k ra rb rc := by simp [withRegs3, ha, hb, hc]

theorem withRegs3_none {a b c : RegId} (s : State) (k : Reg → Reg → Reg → Result)
    (h : regOfId a = none ∨ regOfId b = none ∨ regOfId c = none) :
    withRegs3 a b c s k = .next (raise .invalidRegister s) := by
  unfold withRegs3
  cases ha : regOfId a with
  | none => simp [ha]
  | some ra =>
    rw [withReg_some s _ ha]
    exact withRegs2_none s (fun rb rc => k ra rb rc) (by simpa [ha] using h)

/-- What the state after an instruction can be, before its status: memory as before or one 16-bit store, the halted flag and the
binding as before. -/
structure Effect (s u : State) : Prop where
  halted : u.halted = s.halted
  program : u.program = s.program
  mem : u.mem = s.mem ∨ ∃ a v, u.mem = memWrite16 s.mem a v

theorem Effect.refl (s : State) : Effect s s := ⟨rfl, rfl, .inl rfl⟩

theorem Effect.writeReg {s u : State} (h : Effect s u) (r : Reg) (v : Word) :
    Effect s (Machine.writeReg u r v) := ⟨by simp [h.halted], by simp [h.program], by simpa using h.mem⟩

/-- Everything an instruction can answer: a next state, which is the state it was given with a cause raised, or an effect and
CONTINUE. No instruction faults and none is refused. -/
theorem exec_cases (i : Instr) (s : State) :
    (∃ c, exec i s = .next (raise c s)) ∨ ∃ u, exec i s = .next (complete u) ∧ Effect s u := by
  have h1 : ∀ (a : RegId) (k : Reg → State), (∀ r, Effect s (k r)) →
      (∃ c, withReg a s (fun r => .next (complete (k r))) = .next (raise c s)) ∨
        ∃ u, withReg a s (fun r => .next (complete (k r))) = .next (complete u) ∧ Effect s u := by
    intro a k hk
    rcases withReg_cases a s (fun r => .next (complete (k r))) with ⟨_, e⟩ | ⟨r, _, e⟩
    · exact .inl ⟨_, e⟩
    · exact .inr ⟨_, e, hk r⟩
  have h2 : ∀ (a b : RegId) (k : Reg → Reg → State), (∀ r q, Effect s (k r q)) →
      (∃ c, withRegs2 a b s (fun r q => .next (complete (k r q))) = .next (raise c s)) ∨
        ∃ u, withRegs2 a b s (fun r q => .next (complete (k r q))) = .next (complete u) ∧ Effect s u := by
    intro a b k hk
    rcases withReg_cases a s (fun r => withReg b s (fun q => .next (complete (k r q)))) with ⟨_, e⟩ | ⟨r, _, e⟩
    · exact .inl ⟨_, e⟩
    · simpa only [withRegs2, e] using h1 b (k r) (hk r)
  have h3 : ∀ (a b c : RegId) (k : Reg → Reg → Reg → Result),
      (∀ r q w, (∃ c, k r q w = .next (raise c s)) ∨ ∃ u, k r q w = .next (complete u) ∧ Effect s u) →
      (∃ x, withRegs3 a b c s k = .next (raise x s)) ∨
        ∃ u, withRegs3 a b c s k = .next (complete u) ∧ Effect s u := by
    intro a b c k hk
    cases ha : regOfId a with
    | none => exact .inl ⟨_, withRegs3_none s k (.inl ha)⟩
    | some ra =>
      cases hb : regOfId b with
      | none => exact .inl ⟨_, withRegs3_none s k (.inr (.inl hb))⟩
      | some rb =>
        cases hc : regOfId c with
        | none => exact .inl ⟨_, withRegs3_none s k (.inr (.inr hc))⟩
        | some rc => simpa only [withRegs3_some s k ha hb hc] using hk ra rb rc
  have hj : ∀ (b : Bool) (a : Word), ∃ u, jumpWhen b a s = .next (complete u) ∧ Effect s u := by
    intro b a
    refine ⟨_, rfl, ?_⟩
    cases b
    · exact Effect.refl s
    · exact (Effect.refl s).writeReg .ip a
  cases i with
  | hlt => exact .inl ⟨.halt, rfl⟩
  | movlr dst value => exact h1 _ _ (fun r => (Effect.refl s).writeReg r _)
  | movrr dst src => exact h2 _ _ _ (fun r q => (Effect.refl s).writeReg r _)
  | movmr dst addr => exact h1 _ _ (fun r => (Effect.refl s).writeReg r _)
  | movrm addr src => exact h1 _ _ (fun r => ⟨rfl, rfl, .inr ⟨_, _, rfl⟩⟩)
  | add dst left right => exact h3 _ _ _ _ (fun d l r => .inr ⟨_, rfl, (Effect.refl s).writeReg d _⟩)
  | sub dst left right => exact h3 _ _ _ _ (fun d l r => .inr ⟨_, rfl, (Effect.refl s).writeReg d _⟩)
  | mult dst left right => exact h3 _ _ _ _ (fun d l r => .inr ⟨_, rfl, (Effect.refl s).writeReg d _⟩)
  | div dst left right =>
    refine h3 _ _ _ _ (fun d l r => ?_)
    by_cases h0 : readReg s r = 0#16
    · exact .inl ⟨.divByZero, by simp [h0]⟩
    · exact .inr ⟨_, by simp only [h0, if_false]; rfl, ((Effect.refl s).writeReg d _).writeReg .re _⟩
  | cmp left right => exact h2 _ _ _ (fun r q => (Effect.refl s).writeReg .cr _)
  | jmp addr => exact .inr (hj _ _)
  | jeq addr => exact .inr (hj _ _)
  | jne addr => exact .inr (hj _ _)
  | jlt addr => exact .inr (hj _ _)
  | jle addr => exact .inr (hj _ _)
  | jgt addr => exact .inr (hj _ _)
  | jge addr => exact .inr (hj _ _)

end Sys2Proof.Machine
end

