-- ==== Sys2Proof/Laws/PerInstr.lean ====
section
/-! SUPPORT. One statement about every instruction as syntax, with a lemma for each constructor: its encoding begins with its
mnemonic's opcode byte, and has 1, 3 or 4 bytes (R60, R65). -/

namespace Sys2Proof.Laws.EncodingShape

/-- The encoding of an instruction begins with its mnemonic's opcode and is as long as its format. -/
def Statement (i : Instr) : Prop :=
  (encode i).head? = some (opcodeMap i.mnemonic) ∧
    (encode i).length = 1 + operandBytes (formatOf i.mnemonic) ∧ (encode i).length ≤ 4

theorem hlt : Statement .hlt := ⟨rfl, rfl, by decide⟩
theorem movlr (dst : RegId) (value : Word) : Statement (.movlr dst value) := ⟨rfl, rfl, le_refl 4⟩
theorem movrr (dst src : RegId) : Statement (.movrr dst src) := ⟨rfl, rfl, Nat.le_succ 3⟩
theorem movmr (dst : RegId) (addr : Word) : Statement (.movmr dst addr) := ⟨rfl, rfl, le_refl 4⟩
theorem movrm (addr : Word) (src : RegId) : Statement (.movrm addr src) := ⟨rfl, rfl, le_refl 4⟩
theorem add (dst left right : RegId) : Statement (.add dst left right) := ⟨rfl, rfl, le_refl 4⟩
theorem sub (dst left right : RegId) : Statement (.sub dst left right) := ⟨rfl, rfl, le_refl 4⟩
theorem mult (dst left right : RegId) : Statement (.mult dst left right) := ⟨rfl, rfl, le_refl 4⟩
theorem div (dst left right : RegId) : Statement (.div dst left right) := ⟨rfl, rfl, le_refl 4⟩
theorem cmp (left right : RegId) : Statement (.cmp left right) := ⟨rfl, rfl, Nat.le_succ 3⟩
theorem jmp (addr : Word) : Statement (.jmp addr) := ⟨rfl, rfl, Nat.le_succ 3⟩
theorem jeq (addr : Word) : Statement (.jeq addr) := ⟨rfl, rfl, Nat.le_succ 3⟩
theorem jne (addr : Word) : Statement (.jne addr) := ⟨rfl, rfl, Nat.le_succ 3⟩
theorem jlt (addr : Word) : Statement (.jlt addr) := ⟨rfl, rfl, Nat.le_succ 3⟩
theorem jle (addr : Word) : Statement (.jle addr) := ⟨rfl, rfl, Nat.le_succ 3⟩
theorem jgt (addr : Word) : Statement (.jgt addr) := ⟨rfl, rfl, Nat.le_succ 3⟩
theorem jge (addr : Word) : Statement (.jge addr) := ⟨rfl, rfl, Nat.le_succ 3⟩

end Sys2Proof.Laws.EncodingShape
end

