-- ==== Sys2Proof/Laws/Run.lean ====
section
/-! SUPPORT. Running the machine step by step, through the host's `run` and the model's own loop. -/

namespace Sys2Proof.Machine

/-- Of any machine behind the host's interface: a step that goes on leaves one step fewer. -/
theorem run_of_next (M : Host.Core) {s t : M.State} (h : M.step s = .next t) (k : Nat) :
    M.run (k + 1) s = M.run k t := by simp only [Host.Core.run, h]

theorem run_of_fault (M : Host.Core) {s : M.State} {r : M.Fault} (h : M.step s = .fault r) (k : Nat) :
    M.run (k + 1) s = .fault r := by simp only [Host.Core.run, h]

theorem run_of_refused (M : Host.Core) {s : M.State} {r : M.Refusal} (h : M.step s = .refused r) (k : Nat) :
    M.run (k + 1) s = .refused r := by simp only [Host.Core.run, h]

theorem core_run_zero (s : State) : Sys2Proof.core.run 0 s = .next s := rfl

theorem core_run_next {s t : State} (h : step s = .next t) (k : Nat) :
    Sys2Proof.core.run (k + 1) s = Sys2Proof.core.run k t := run_of_next Sys2Proof.core h k

theorem core_run_fault {s : State} {r : Fault} (h : step s = .fault r) (k : Nat) :
    Sys2Proof.core.run (k + 1) s = .fault r := run_of_fault Sys2Proof.core h k

theorem core_run_refused {s : State} {r : Refusal} (h : step s = .refused r) (k : Nat) :
    Sys2Proof.core.run (k + 1) s = .refused r := run_of_refused Sys2Proof.core h k

/-- A run start with a buffer that can be bound does its three things, in every state. -/
theorem runStart_next {buffer : List Byte} (h : buffer.length ≤ 65536) (s : State) :
    runStart buffer s =
      .next { s with program := some buffer, halted := false, ip := 0#16, status := .continues } := if_pos h

theorem runStart_refused {buffer : List Byte} (h : 65536 < buffer.length) (s : State) :
    runStart buffer s = .refused .bufferTooLong := if_neg (Nat.not_le.2 h)

/-- A run is its run start and then the loop. -/
theorem run_of_start {buffer : List Byte} {s t : State} (h : runStart buffer s = .next t) (fuel : Nat) :
    run buffer fuel s = runLoop fuel t := by simp only [run, runOf, h, runLoop]

theorem runWith_of_start (sm : StatusMap) (om : OpcodeMap) (rm : RegIdMap) {buffer : List Byte} {s t : State}
    (h : runStart buffer s = .next t) (fuel : Nat) :
    runWith sm om rm buffer fuel s = runLoopWith sm om rm fuel t := by simp only [runWith, runOf, h, runLoopWith]

theorem run_of_refused_start {buffer : List Byte} {s : State} {r : Refusal} (h : runStart buffer s = .refused r)
    (fuel : Nat) : run buffer fuel s = none := by simp only [run, runOf, h]

/-- One round of the loop of R82, over any step. -/
theorem loopOf_next {f : State → Result} {s t : State} (h : f s = .next t) (k : Nat) :
    loopOf f (k + 1) s = if t.status = .continues then loopOf f k t else some (t.status, t) := by
  simp only [loopOf, h]

theorem runLoop_next {s t : State} (h : step s = .next t) (k : Nat) :
    runLoop (k + 1) s = if t.status = .continues then runLoop k t else some (t.status, t) :=
  loopOf_next h k

end Sys2Proof.Machine
end

