-- ==== Sys2Proof/Laws/Step.lean ====
section
/-! SUPPORT. Everything a step can do, said once, under any maps; then the same under the default maps. -/

namespace Sys2Proof.Machine

variable (om : OpcodeMap) (rm : RegIdMap)

theorem stepWith_halted {s : State} (h : s.halted = true) : stepWith om rm s = .next (haltedStep s) := by
  simp [stepWith, h]

theorem stepWith_unbound {s : State} (h : s.halted = false) (hp : s.program = none) :
    stepWith om rm s = .fault .noRunStarted := by simp [stepWith, h, fetchInstrWith_unbound om hp]

theorem stepWith_raised {s s' : State} {c : Cause} (h : s.halted = false)
    (hf : fetchInstrWith om s = .raised c s') : stepWith om rm s = .next (raise c s') := by simp [stepWith, h, hf]

theorem stepWith_instr {s s' : State} {i : Instr} (h : s.halted = false)
    (hf : fetchInstrWith om s = .instr i s') : stepWith om rm s = exec (i.mapRegIds (defaultId rm)) s' := by
  simp [stepWith, h, hf]

/-- The steps of a running machine with a buffer bound: the opcode byte is missing, an operand byte is missing, the opcode is
unknown, or an instruction lies at `pc` and is executed with `pc` past it. -/
theorem stepWith_cases {s : State} {p : List Byte} (h : s.halted = false) (hp : s.program = some p) :
    (p[s.ip.toNat]? = none ∧ stepWith om rm s = .next (raise .truncatedProgram s)) ∨
    (∃ op bs, CodeAt p s.ip (op :: bs) ∧ bs.length < operandCount om op ∧
        p[(s.ip + BitVec.ofNat 16 (op :: bs).length).toNat]? = none ∧
        stepWith om rm s = .next (raise .truncatedProgram (advancePc s (op :: bs).length))) ∨
    (∃ op, p[s.ip.toNat]? = some op ∧ mnemonicOf om op = none ∧
        stepWith om rm s = .next (raise .unknownOpcode (advancePc s 1))) ∨
    ∃ i, CodeAt p s.ip (encodeWith om i) ∧
      stepWith om rm s = exec (i.mapRegIds (defaultId rm)) (advancePc s (encodeWith om i).length) := by
  rcases fetchInstrWith_cases om hp with ⟨hn, hf⟩ | ⟨op, bs, hc, hl, hn, hf⟩ | ⟨op, bs, hc, hl, hf⟩
  · exact .inl ⟨hn, stepWith_raised om rm h hf⟩
  · exact .inr (.inl ⟨op, bs, hc, hl, hn, stepWith_raised om rm h hf⟩)
  · rcases decodeWith_exact om op bs hl with ⟨hm, hd⟩ | ⟨i, hd, he⟩
    · have hbs : bs = [] := List.length_eq_zero_iff.1 (by rw [hl, operandCount, hm])
      subst hbs
      exact .inr (.inr (.inl ⟨op, hc.1, hm, stepWith_raised om rm h (by rw [hf, decodeFetched, hd]; rfl)⟩))
    · exact .inr (.inr (.inr ⟨i, he ▸ hc, stepWith_instr om rm h (by rw [hf, decodeFetched, hd, he])⟩))

theorem step_halted {s : State} (h : s.halted = true) : step s = .next (haltedStep s) :=
  stepWith_halted opcodeMap regIdMap h

theorem step_unbound {s : State} (h : s.halted = false) (hp : s.program = none) :
    step s = .fault .noRunStarted := stepWith_unbound opcodeMap regIdMap h hp

theorem step_raised {s s' : State} {c : Cause} (h : s.halted = false) (hf : fetchInstr s = .raised c s') :
    step s = .next (raise c s') := stepWith_raised opcodeMap regIdMap h hf

/-- Under the default maps the instruction is executed as it was decoded. -/
theorem step_instr {s s' : State} {i : Instr} (h : s.halted = false) (hf : fetchInstr s = .instr i s') :
    step s = exec i s' :=
  (stepWith_instr opcodeMap regIdMap h hf).trans (by rw [mapRegIds_regIdMap])

theorem step_cases {s : State} {p : List Byte} (h : s.halted = false) (hp : s.program = some p) :
    (p[s.ip.toNat]? = none ∧ step s = .next (raise .truncatedProgram s)) ∨
    (∃ op bs, CodeAt p s.ip (op :: bs) ∧ bs.length < operandCount opcodeMap op ∧
        p[(s.ip + BitVec.ofNat 16 (op :: bs).length).toNat]? = none ∧
        step s = .next (raise .truncatedProgram (advancePc s (op :: bs).length))) ∨
    (∃ op, p[s.ip.toNat]? = some op ∧ mnemonicOf opcodeMap op = none ∧
        step s = .next (raise .unknownOpcode (advancePc s 1))) ∨
    ∃ i, CodeAt p s.ip (encode i) ∧ step s = exec i (advancePc s (encode i).length) := by
  have e := stepWith_cases opcodeMap regIdMap h hp
  simp only [mapRegIds_regIdMap] at e
  exact e

end Sys2Proof.Machine
end

