-- ==== Sys2Proof/Tests/Slice0.lean ====
section
/-! SUPPORT. Tests from spec/95_test_vectors.md and the worked examples, and a witness for the hypotheses of each obligation. -/

namespace Sys2Proof.Tests
open Sys2Proof Sys2Proof.Machine

/-- The start state of the vectors: a run start on a machine whose registers and memory are 0. -/
def started (code : List Byte) : State := { State.reset with program := some code }

/-- Whether an answer is a next state with a property. -/
def nextWith (o : Result) (p : State → Bool) : Bool :=
  match o with
  | .next t => p t
  | .fault _ => false
  | .refused _ => false

/-! ### Decoding: one word of each row, the opcode's bits as spec/opcode_table.json writes them -/

theorem test_decode_hlt : decodeTableWord 8 0b00000000 = some .hlt := by decide
theorem test_decode_movlr :
    decodeTableWord 32 0b00000001000000110000000000000101 = some (.movlr 3 5) := by decide
theorem test_decode_movrr : decodeTableWord 24 0b000000100000010000000011 = some (.movrr 4 3) := by decide
theorem test_decode_movmr :
    decodeTableWord 32 0b00000011000001100000000100000000 = some (.movmr 6 0x0100) := by decide
theorem test_decode_movrm :
    decodeTableWord 32 0b00000100000000010000000000000011 = some (.movrm 0x0100 3) := by decide
theorem test_decode_add :
    decodeTableWord 32 0b00000101000001010000001100000100 = some (.add 5 3 4) := by decide
theorem test_decode_sub :
    decodeTableWord 32 0b00000110000001000000010000000101 = some (.sub 4 4 5) := by decide
theorem test_decode_mult :
    decodeTableWord 32 0b00000111000001010000001100000011 = some (.mult 5 3 3) := by decide
theorem test_decode_div :
    decodeTableWord 32 0b00001000000001010000001100000100 = some (.div 5 3 4) := by decide
theorem test_decode_cmp : decodeTableWord 24 0b000010010000001100000100 = some (.cmp 3 4) := by decide
theorem test_decode_jmp : decodeTableWord 24 0b000010100000000000001100 = some (.jmp 0x000C) := by decide
theorem test_decode_jeq : decodeTableWord 24 0b000010110000000000010011 = some (.jeq 0x0013) := by decide
theorem test_decode_jne : decodeTableWord 24 0b000011000000000000010000 = some (.jne 0x0010) := by decide
theorem test_decode_jlt : decodeTableWord 24 0b000011010000000000100000 = some (.jlt 0x0020) := by decide
theorem test_decode_jle : decodeTableWord 24 0b000011100001001000110100 = some (.jle 0x1234) := by decide
theorem test_decode_jgt : decodeTableWord 24 0b000011110000000001000000 = some (.jgt 0x0040) := by decide
theorem test_decode_jge : decodeTableWord 24 0b000100000000000000000000 = some (.jge 0x0000) := by decide
/-- R66: 0x11 is the first unknown byte, and R68: a cut instruction is none. -/
theorem test_decode_rejects :
    decode [0x11] = .unknownOpcode 0x11 ∧ decode [0xFF, 0x00] = .unknownOpcode 0xFF ∧
    decode [0x01, 0x03, 0x00] = .truncated ∧ decode [] = .truncated := by decide

/-! ### Well-formedness: an ill-formed term for the check in each slot, refused; identifiers at the edge -/

theorem test_illformed_is_refused :
    Instr.wellFormed (.movlr 7 0x1234) = false ∧ Instr.wellFormed (.movrr 3 0xFF) = false ∧
    Instr.wellFormed (.movrr 7 3) = false ∧ Instr.wellFormed (.movmr 255 0) = false ∧
    Instr.wellFormed (.movrm 0x0100 9) = false ∧ Instr.wellFormed (.add 7 0 0) = false ∧
    Instr.wellFormed (.sub 0 7 0) = false ∧ Instr.wellFormed (.div 0 0 7) = false ∧
    Instr.wellFormed (.cmp 3 7) = false := by decide
theorem test_wellformed_is_accepted :
    Instr.wellFormed (.add 0 6 3) = true ∧ Instr.wellFormed (.movlr 6 0xFFFF) = true ∧
    Instr.wellFormed .hlt = true ∧ Instr.wellFormed (.jmp 0xFFFF) = true := by decide

/-! ### Instructions, by vector -/

theorem test_hlt_vH1 : nextWith (step (started [0x00]))
    (fun t => decide (t.halted = true ∧ t.ip = 1 ∧ t.status = .stop .halt)) = true := by decide
theorem test_movlr_vM1 : nextWith (step (started [0x01, 0x03, 0xFF, 0xFF]))
    (fun t => decide (t.r1 = 0xFFFF ∧ t.ip = 4 ∧ t.status = .continues)) = true := by decide
theorem test_movlr_ip_vM3 : nextWith (step (started [0x01, 0x00, 0x00, 0x10]))
    (fun t => decide (t.ip = 0x0010)) = true := by decide
theorem test_movrr_vM4 : nextWith (step { started [0x02, 0x04, 0x03] with r1 := 0x1234 })
    (fun t => decide (t.r2 = 0x1234 ∧ t.r1 = 0x1234)) = true := by decide
/-- V-M6 at address 0: IP read as a source is the next address. -/
theorem test_movrr_ip_vM6 : nextWith (step (started [0x02, 0x05, 0x00]))
    (fun t => decide (t.r3 = 3)) = true := by decide
theorem test_movmr_vM8 :
    nextWith (step { started [0x03, 0x06, 0x01, 0x00] with mem := [(0x0101, 0x37)] })
      (fun t => decide (t.r4 = 0x0037)) = true := by decide
theorem test_movmr_wraps_vM9 :
    nextWith (step { started [0x03, 0x04, 0xFF, 0xFF] with mem := [(0, 0x34), (0xFFFF, 0x12)] })
      (fun t => decide (t.r2 = 0x1234)) = true := by decide
/-- V-M11: the zero byte is not listed, so the memory is in its canonical form. -/
theorem test_movrm_vM11 : nextWith (step { started [0x04, 0x01, 0x00, 0x03] with r1 := 0x0037 })
    (fun t => decide (t.mem = [(0x0101, 0x37)] ∧ t.ip = 4)) = true := by decide
theorem test_movrm_wraps_vM12 : nextWith (step { started [0x04, 0xFF, 0xFF, 0x03] with r1 := 0x1234 })
    (fun t => decide (t.mem = [(0, 0x34), (0xFFFF, 0x12)])) = true := by decide
theorem test_add_vA2 : nextWith (step { started [0x05, 0x05, 0x03, 0x04] with r1 := 0xFFFF, r2 := 1, r3 := 9 })
    (fun t => decide (t.r3 = 0)) = true := by decide
theorem test_add_aliased_vA24 : nextWith (step { started [0x05, 0x03, 0x03, 0x03] with r1 := 0x00FF })
    (fun t => decide (t.r1 = 0x01FE)) = true := by decide
theorem test_sub_vA5 : nextWith (step { started [0x06, 0x05, 0x03, 0x04] with r1 := 3, r2 := 5 })
    (fun t => decide (t.r3 = 0xFFFE)) = true := by decide
theorem test_mult_vA12 : nextWith (step { started [0x07, 0x05, 0x03, 0x03] with r1 := 0x1234, re := 5 })
    (fun t => decide (t.r3 = 0x5A90 ∧ t.re = 5)) = true := by decide
/-- V-A26: quotient and remainder both from the old R1. -/
theorem test_div_aliased_vA26 : nextWith (step { started [0x08, 0x03, 0x03, 0x04] with r1 := 7, r2 := 2 })
    (fun t => decide (t.r1 = 3 ∧ t.re = 1)) = true := by decide
theorem test_div_by_zero_vA28 :
    nextWith (step { started [0x08, 0x05, 0x03, 0x04] with r1 := 9, r3 := 0xAAAA, re := 0x7777 })
      (fun t => decide (t.status = .stop .divByZero ∧ t.r3 = 0xAAAA ∧ t.re = 0x7777 ∧ t.ip = 4 ∧
        t.halted = true)) = true := by decide
theorem test_cmp_vC5 : nextWith (step { started [0x09, 0x03, 0x04] with r1 := 0x8000, r2 := 0x7FFF })
    (fun t => decide (t.cr = 2)) = true := by decide
theorem test_cmp_vC9 : nextWith (step { started [0x09, 0x03, 0x04] with r1 := 3, r2 := 9, cr := 0x1234 })
    (fun t => decide (t.cr = 1)) = true := by decide

/-- V-J1 to V-J7: which of JMP, JEQ, JNE, JLT, JLE, JGT, JGE to 0x0030 are taken for a value of CR. -/
def takenRow (cr : Word) : List Bool :=
  [0x0A, 0x0B, 0x0C, 0x0D, 0x0E, 0x0F, 0x10].map (fun op : Byte =>
    nextWith (step { started [op, 0x00, 0x30] with cr := cr }) (fun t => decide (t.ip = 0x0030)))

theorem test_jumps_vJ1 : takenRow 0 = [true, true, false, false, true, false, true] := by decide
theorem test_jumps_vJ2 : takenRow 1 = [true, false, true, true, true, false, false] := by decide
theorem test_jumps_vJ3 : takenRow 2 = [true, false, true, false, false, true, true] := by decide
theorem test_jumps_vJ6 : takenRow 0x0100 = [true, false, true, false, false, false, false] := by decide

/-! ### Fetch, stops and the host -/

theorem test_truncated_vF2 : nextWith (step (started [0x01, 0x03, 0x00]))
    (fun t => decide (t.status = .stop .truncatedProgram ∧ t.ip = 3 ∧ t.r1 = 0 ∧ t.halted = true)) = true := by
  decide
theorem test_empty_buffer_vF1 : nextWith (step (started []))
    (fun t => decide (t.status = .stop .truncatedProgram ∧ t.ip = 0)) = true := by decide
theorem test_unknown_last_vF7 : nextWith (step (started [0x11]))
    (fun t => decide (t.status = .stop .unknownOpcode ∧ t.ip = 1)) = true := by decide
theorem test_invalid_register_vF9 : nextWith (step (started [0x01, 0x07, 0x12, 0x34, 0x00]))
    (fun t => decide (t.status = .stop .invalidRegister ∧ t.ip = 4 ∧ t.r1 = 0)) = true := by decide
theorem test_truncated_before_invalid_vF10 : nextWith (step (started [0x01, 0x07, 0x12]))
    (fun t => decide (t.status = .stop .truncatedProgram ∧ t.ip = 3)) = true := by decide
/-- V-A30: InvalidRegister comes before DivByZero. -/
theorem test_invalid_before_zero_vA30 : nextWith (step (started [0x08, 0x07, 0x03, 0x04]))
    (fun t => decide (t.status = .stop .invalidRegister)) = true := by decide
/-- V-F8: a step of a halted machine changes nothing and returns HALT. -/
theorem test_halted_vF8 :
    nextWith (step { started [0x01, 0x03, 0xFF, 0xFF] with halted := true, ip := 7 })
      (fun t => decide (t.ip = 7 ∧ t.r1 = 0 ∧ t.status = .stop .halt)) = true := by decide
/-- R53, V-F13: with L = 65,536 a fetch at 0xFFFF leaves pc = 0. -/
theorem test_fetch_wraps : fetch8 { started (List.replicate 65536 0x03) with ip := 0xFFFF } =
    .done 0x03 { started (List.replicate 65536 0x03) with ip := 0 } := by
  refine (fetch8_done (p := List.replicate 65536 0x03) (b := 0x03) rfl ?_).trans rfl
  exact List.getElem?_replicate_of_lt (by decide)
/-- S2: 01020304 laid out from 0x0010 on. -/
theorem test_write32_s2 : memWrite32 [] 0x0010 0x01020304 =
    [(0x10, 0x01), (0x11, 0x02), (0x12, 0x03), (0x13, 0x04)] ∧
    memRead32 (memWrite32 [] 0x0010 0x01020304) 0x0010 = 0x01020304 := by decide
/-- R46: three bytes from 0xFFFF on wrap, and the cursor ends at 2. -/
theorem test_write_bytes_wraps : (hostWriteBytes 0xFFFF [1, 2, 3] State.reset).1.mem = [(0, 2), (1, 3), (0xFFFF, 1)] ∧
    (hostWriteBytes 0xFFFF [1, 2, 3] State.reset).2 = 2 := by decide
/-- P6: a run start keeps a register and a byte. -/
theorem test_run_start_keeps : nextWith (runStart [0x00] { started [] with
      r1 := 0xBEEF, ip := 0x14, halted := true, mem := [(0x10, 0xBE)], status := .stop .halt })
    (fun t => decide (t.r1 = 0xBEEF ∧ t.mem = [(0x10, 0xBE)] ∧ t.ip = 0 ∧ t.halted = false ∧
      t.program = some [0x00])) = true := by decide
/-- A word of the table placed after reset is the first instruction that runs, whatever is in the buffer. -/
theorem test_with_fetch_word : nextWith (step (State.reset.withFetchWord 32 0x01030005))
    (fun t => decide (t.r1 = 5 ∧ t.ip = 4)) = true ∧
    nextWith (step ({ started [0x11, 0x11] with ip := 3, halted := true }.withFetchWord 24 0x0A1234))
    (fun t => decide (t.ip = 0x1234)) = true := by decide

/-- A numbering other than the default: each byte is the default's plus 0x40, for opcodes and for registers. -/
def shiftedOpcodes : OpcodeMap := fun m => opcodeMap m + 0x40
def shiftedRegisters : RegIdMap := fun r => regIdMap r + 0x40

/-- R62, R22: the machine runs under it. MOVLR R1 5 is `41 43 00 05` there, a default identifier is invalid, a default opcode
unknown. -/
theorem test_other_maps :
    nextWith (stepWith shiftedOpcodes shiftedRegisters (started [0x41, 0x43, 0x00, 0x05]))
      (fun t => decide (t.r1 = 5 ∧ t.ip = 4 ∧ t.status = .continues)) = true ∧
    nextWith (stepWith shiftedOpcodes shiftedRegisters (started [0x41, 0x03, 0x00, 0x05]))
      (fun t => decide (t.r1 = 0 ∧ t.ip = 4 ∧ t.status = .stop .invalidRegister)) = true ∧
    nextWith (stepWith shiftedOpcodes shiftedRegisters (started [0x01, 0x43, 0x00, 0x05]))
      (fun t => decide (t.ip = 1 ∧ t.status = .stop .unknownOpcode)) = true := by decide

/-- A status map other than the default. -/
def otherStatuses : StatusMap
  | .continues => 0
  | .stop c => 0x80 + statusMap (.stop c)

/-- R10, R82: a step and a run return the numbers of the map, here for a MOVLR and a DIV by zero after it. -/
theorem test_other_statuses :
    (returnOf otherStatuses (step (started [0x01, 0x03, 0x00, 0x05]))).map (fun x => x.1) = some 0 ∧
    (runWith otherStatuses opcodeMap regIdMap [0x01, 0x03, 0x00, 0x05, 0x08, 0x03, 0x03, 0x04] 2 State.reset).map
      (fun x => (x.1, x.2.r1)) = some (0x83, 5) ∧
    (runWith statusMap opcodeMap regIdMap [0x01, 0x03, 0x00, 0x05, 0x08, 0x03, 0x03, 0x04] 2 State.reset).map
      (fun x => x.1) = some 3 := by decide

/-- Log entry 20: a run start on a single-stepped run that has not ended begins the new run. -/
theorem test_run_start_is_unguarded : nextWith (runStart [0x00] { started [0x01, 0x03, 0x00, 0x05, 0x00] with ip := 4 })
    (fun t => decide (t.ip = 0 ∧ t.program = some [0x00] ∧ t.halted = false)) = true := by decide

/-! ### Witnesses: a state and operands that meet the hypotheses of each obligation -/

/-- DecodeOfEncodeGivesInstruction, LengthIsAFunctionOfTheOpcode, DispatchIsByTheOpcodeByteAlone: an injective map, a byte it
gives to a mnemonic, and one it does not. -/
theorem test_wit_maps : Function.Injective opcodeMap ∧ opcodeMap .jge = 0x10 ∧ ∀ m, opcodeMap m ≠ 0x11 :=
  ⟨opcodeMap_injective, rfl, by intro m; cases m <;> decide⟩

/-- The hypotheses every statement about a step shares: a started machine is running at 0 with its buffer bound, so the `CodeAt … 0`
and `[…]?` facts below meet them for `started` of the same bytes. -/
theorem test_wit_started (code : List Byte) : (started code).halted = false ∧
    (started code).program = some code ∧ (started code).ip = 0 := ⟨rfl, rfl, rfl⟩

/-- DecodedBytesAreTheEncoding. -/
theorem test_wit_decoded : decodeWith opcodeMap [0x00, 0xFF] = .instr .hlt [0xFF] := by decide

/-- The register hypotheses of RegisterRoundTrip and of the instructions, at the edges: 0 and 6 name registers, 7 and 255 none. -/
theorem test_wit_registers : regOfId 0 = some .ip ∧ regOfId 1 = some .re ∧ regOfId 2 = some .cr ∧
    regOfId 6 = some .r4 ∧ regOfId 7 = none ∧ regOfId 255 = none := by decide

/-- CanonicalMemoriesAreUnique. -/
theorem test_wit_canonical : Memory.wf [(0, 1), (65535, 255)] = true ∧
    ∀ a, memRead8 [(0, 1), (65535, 255)] a = memRead8 [(0, 1), (65535, 255)] a := ⟨by decide, fun _ => rfl⟩

/-- RunStartDoesThreeThings: buffers of 0, 65,536 and 65,537 bytes. -/
theorem test_wit_run_start : ([] : List Byte).length ≤ 65536 ∧ (List.replicate 65536 (0 : Byte)).length ≤ 65536 ∧
    65536 < (List.replicate 65537 (0 : Byte)).length := by
  simp only [List.length_replicate, List.length_nil]; omega

/-- StepBeforeAnyRunFaults: the machine at reset. -/
theorem test_wit_before_run : State.reset.halted = false ∧ State.reset.program = none := ⟨rfl, rfl⟩

/-- InvariantHoldsAtReset, HostOperationsKeepTheInvariant. -/
theorem test_wit_power_on : Memory.wf [(7, 9)] = true ∧ StateInv State.reset :=
  ⟨by decide, ⟨by decide, fun _ h => (by cases h), by decide⟩⟩

/-- The host operations of HostOperationsKeepTheInvariant that answer a next state. -/
theorem test_wit_host_next : (∃ t, runStart [0x00] State.reset = .next t) ∧
    ∃ t, setRegister 6 0xFFFF State.reset = .next t := ⟨⟨_, rfl⟩, _, rfl⟩

/-- EveryStepKeepsTheInvariant: a store. -/
theorem test_wit_step_inv : StateInv (started [0x04, 0x00, 0x00, 0x00]) ∧
    ∃ t, step (started [0x04, 0x00, 0x00, 0x00]) = .next t := by
  refine ⟨⟨by decide, fun p h => ?_, by decide⟩, _, rfl⟩
  cases h; decide

/-- FetchOfAByte, at the last byte and just past it. -/
theorem test_wit_fetch : (started [0x00]).program = some [0x00] ∧ (started [0x00]).ip.toNat < 1 ∧
    1 ≤ ({ started [0x00] with ip := 1 } : State).ip.toNat := ⟨rfl, by decide, by decide⟩

/-- WideFetchesAreBigEndian: four bytes hold both fetches, and one byte cuts a Fetch16. -/
theorem test_wit_wide_fetch : CodeAt [1, 2, 3, 4] (started [1, 2, 3, 4]).ip [1, 2, 3, 4] ∧
    CodeAt [1, 2, 3, 4] (started [1, 2, 3, 4]).ip [1, 2] ∧
    ([1] : List Byte)[(started [1]).ip.toNat]? = some 1 ∧
    ([1] : List Byte)[((started [1]).ip + 1#16).toNat]? = none :=
  ⟨⟨rfl, rfl, rfl, rfl, trivial⟩, ⟨rfl, rfl, trivial⟩, rfl, rfl⟩

/-- StepRunsTheDecodedInstruction, and the code hypothesis of every statement about a step. -/
theorem test_wit_code : (started [0x02, 0x04, 0x03]).halted = false ∧
    CodeAt [0x02, 0x04, 0x03] (started [0x02, 0x04, 0x03]).ip [0x02, 0x04, 0x03] ∧
    decode [0x02, 0x04, 0x03] = .instr (.movrr 4 3) [] := ⟨rfl, ⟨rfl, rfl, rfl, trivial⟩, by decide⟩

/-- HaltedStepChangesNothing, HaltedIsTerminal. -/
theorem test_wit_halted : ({ started [] with halted := true } : State).halted = true ∧
    ([] : List Byte).length ≤ 65536 := ⟨rfl, by decide⟩

/-- EveryStepContinuesOrHalts. -/
theorem test_wit_bound : (started []).program ≠ none := by decide

/-- StatusByPriority: each clause has an opcode byte it speaks of: none, unknown, a known one with a missing operand, a whole
instruction ill formed, a HLT, a DIV with a zero and a nonzero divisor, another instruction. -/
theorem test_wit_priority : ([] : List Byte)[(started []).ip.toNat]? = none ∧
    mnemonicOf opcodeMap 0x11 = none ∧ mnemonicOf opcodeMap 0x01 = some .movlr ∧
    ([0x01] : List Byte)[((started [0x01]).ip + BitVec.ofNat 16 3).toNat]? = none ∧
    CodeAt [0x02, 0x07, 0x03] 0 (encode (.movrr 7 3)) ∧ Instr.wellFormed (.movrr 7 3) = false ∧
    CodeAt [0x08, 0x05, 0x03, 0x00] 0 (encode (.div 5 3 0)) ∧ regOfId 0 = some .ip ∧
    readReg (advancePc (started [0x08, 0x05, 0x03, 0x00]) 4) .ip ≠ 0#16 ∧
    readReg (advancePc (started [0x08, 0x05, 0x03, 0x04]) 4) .r2 = 0#16 ∧
    CodeAt [0x00] 0 (encode .hlt) ∧ CodeAt [0x0A, 0xFF, 0xFF] 0 (encode (.jmp 0xFFFF)) :=
  ⟨rfl, by decide, by decide, rfl, ⟨rfl, rfl, rfl, trivial⟩, by decide, ⟨rfl, rfl, rfl, rfl, trivial⟩, by decide,
    by decide, by decide, ⟨rfl, trivial⟩, ⟨rfl, rfl, rfl, trivial⟩⟩

/-- FetchIsSeparateFromDataMemory, StepFrame: a fetch that gives an instruction, one that raises, and an execution that changes
RE, CR, IP, the two bytes of a store that wraps. -/
theorem test_wit_frame : (∃ t, fetchInstr (started [0x00]) = .instr .hlt t) ∧
    (∃ t, fetchInstr (started [0x11]) = .raised .unknownOpcode t) ∧
    (nextWith (exec (.div 3 4 5) { started [] with r2 := 7, r3 := 4 }) (fun t => decide (t.re ≠ 0)) = true) ∧
    (nextWith (exec (.cmp 3 4) { started [] with r2 := 1 }) (fun t => decide (t.cr ≠ 0)) = true) ∧
    (nextWith (exec (.jmp 9) (started [])) (fun t => decide (t.ip ≠ 0)) = true) ∧
    (nextWith (exec (.movrm 0xFFFF 3) { started [] with r1 := 0x1234 })
      (fun t => decide (memRead8 t.mem 0xFFFF = 0x12 ∧ memRead8 t.mem 0 = 0x34 ∧ memRead8 t.mem 1 = 0)) = true) ∧
    (nextWith (exec (.movrm 0xFFFF 7) (started [])) (fun t => decide (t.mem = [])) = true) :=
  ⟨⟨_, rfl⟩, ⟨_, rfl⟩, by decide, by decide, by decide, by decide, by decide⟩

/-- IpAsSourceIsTheNextAddress: each form, IP against itself included, and a right operand IP that reads 0 at pc = 0xFFFC. -/
theorem test_wit_ip_source : CodeAt [0x02, 0x05, 0x00] 0 (encode (.movrr 5 (regIdMap .ip))) ∧
    CodeAt [0x04, 0x00, 0x20, 0x00] 0 (encode (.movrm 0x0020 (regIdMap .ip))) ∧
    CodeAt [0x09, 0x00, 0x00] 0 (encode (.cmp (regIdMap .ip) 0)) ∧
    CodeAt [0x09, 0x03, 0x00] 0 (encode (.cmp 3 (regIdMap .ip))) ∧
    (∀ op ∈ [0x05, 0x06, 0x07, 0x08], CodeAt [op, 0x05, 0x00, 0x03] 0 [op, 0x05, regIdMap .ip, 0x03] ∧
      CodeAt [op, 0x05, 0x03, 0x00] 0 [op, 0x05, 0x03, regIdMap .ip]) ∧
    [encode (.add 5 0 3), encode (.sub 5 0 3), encode (.mult 5 3 0), encode (.div 5 3 0)] =
      [[0x05, 0x05, 0x00, 0x03], [0x06, 0x05, 0x00, 0x03], [0x07, 0x05, 0x03, 0x00], [0x08, 0x05, 0x03, 0x00]] ∧
    regOfId 5 = some .r3 ∧ regOfId 3 = some .r1 ∧ (0xFFFC : Word) + 4#16 = 0#16 :=
  ⟨⟨rfl, rfl, rfl, trivial⟩, ⟨rfl, rfl, rfl, rfl, trivial⟩, ⟨rfl, rfl, rfl, trivial⟩, ⟨rfl, rfl, rfl, trivial⟩,
    fun _ _ => ⟨⟨rfl, rfl, rfl, rfl, trivial⟩, rfl, rfl, rfl, rfl, trivial⟩, by decide, by decide, by decide, by decide⟩

/-- RunReturnsTheFirstNonZeroStatus: a run that returns after two steps, from a machine that was halted elsewhere. -/
theorem test_wit_run : (runLoop 2 (started [0x0A, 0x00, 0x03, 0x00])).map (fun x => x.1) = some (.stop .halt) ∧
    (run [0x0A, 0x00, 0x03, 0x00] 2 { started [] with ip := 9, halted := true }).map (fun x => (x.1, x.2.ip)) =
      some (.stop .halt, 4) := by decide

/-- HaltIsRaisedByHltAlone, HltHalts, StopPlaceIsRecoverable. -/
theorem test_wit_hlt : CodeAt [0x00] (started [0x00]).ip (encode .hlt) ∧
    nextWith (step (started [0x00])) (fun t => decide (t.status = .stop .halt)) = true :=
  ⟨⟨rfl, trivial⟩, by decide⟩

/-- UnknownOpcodeStops, at 0x11 and 0xFF. -/
theorem test_wit_unknown : ([0x11] : List Byte)[(started [0x11]).ip.toNat]? = some 0x11 ∧
    0x11 ≤ (0x11 : Byte).toNat ∧ 0x11 ≤ (0xFF : Byte).toNat ∧
    nextWith (step (started [0xFF])) (fun t => decide (t.status = .stop .unknownOpcode)) = true :=
  ⟨rfl, by decide, by decide, by decide⟩

/-- DivByZeroIsRaisedByDivAlone, DivGivesQuotientAndRemainder: a zero and a nonzero divisor, dst = RE among them. -/
theorem test_wit_div : readReg (started []) .r2 = 0#16 ∧ readReg { started [] with r2 := 1 } .r2 ≠ 0#16 ∧
    nextWith (exec (.div 1 5 4) { started [] with r3 := 7, r2 := 2 }) (fun t => decide (t.re = 1)) = true ∧
    nextWith (exec (.div 5 3 4) (started [])) (fun t => decide (t.status = .stop .divByZero)) = true := by
  decide

/-- InvalidRegisterStops, WellFormedInstructionsComplete. -/
theorem test_wit_complete : Instr.wellFormed (.movrm 0xFFFF 255) = false ∧
    Instr.wellFormed (.div 0 6 6) = true ∧ Instr.div 0 6 6 ≠ .hlt ∧ regOfId 6 = some .r4 ∧
    readReg { started [] with r4 := 1 } .r4 ≠ 0#16 := by decide

/-- TruncatedStopsAtTheMissingByte, CutShort: each number of bytes of a MOVLR that can be missing its next one. -/
theorem test_wit_cut : (∀ k < 4, CodeAt ((encode (.movlr 3 5)).take k) 0 ((encode (.movlr 3 5)).take k) ∧
    ((encode (.movlr 3 5)).take k)[(0#16 + BitVec.ofNat 16 k).toNat]? = none) ∧
    (List.replicate 65536 (0 : Byte)).length = 65536 := by
  refine ⟨fun k hk => ?_, List.length_replicate⟩
  interval_cases k
  · exact ⟨trivial, rfl⟩
  · exact ⟨⟨rfl, trivial⟩, rfl⟩
  · exact ⟨⟨rfl, rfl, trivial⟩, rfl⟩
  · exact ⟨⟨rfl, rfl, rfl, trivial⟩, rfl⟩

/-- TruncatedStopsAtTheMissingByte with the whole space bound: the step of 65,536 zero bytes is a HLT. -/
theorem test_wit_full_buffer : ∃ t, step (started (List.replicate 65536 0x00)) = .next t := by
  have h : CodeAt (List.replicate 65536 0x00) (started (List.replicate 65536 0x00)).ip [0x00] :=
    ⟨List.getElem?_replicate_of_lt (by decide), trivial⟩
  exact ⟨_, (step_instr rfl (fetchInstr_done (p := List.replicate 65536 0x00) rfl h rfl)).trans rfl⟩

/-- JumpTargetIsNotChecked: a target just at L, and the highest. -/
theorem test_wit_jump_out : CodeAt [0x0A, 0x00, 0x03] 0 (encode (.jmp 0x0003)) ∧ 3 ≤ (0x0003 : Word).toNat ∧
    CodeAt [0x0A, 0xFF, 0xFF] 0 (encode (.jmp 0xFFFF)) ∧ 3 ≤ (0xFFFF : Word).toNat :=
  ⟨⟨rfl, rfl, rfl, trivial⟩, by decide, ⟨rfl, rfl, rfl, trivial⟩, by decide⟩

/-- TruncatedStopsAtTheMissingByte: a JMP cut after two bytes stops so, at 2 (V-F4), and does not jump. -/
theorem test_wit_cut_jmp_vF4 : nextWith (step (started [0x0A, 0x12]))
    (fun t => decide (t.status = .stop .truncatedProgram ∧ t.ip = 2)) = true := by decide

/-- MapsOnlyRenumber: maps other than the default, an instruction's bytes, an unknown byte, a cut instruction. -/
theorem test_wit_renumber : Function.Injective shiftedOpcodes ∧ Function.Injective shiftedRegisters ∧
    CodeAt [0x41, 0x43, 0x00, 0x05] 0 (encodeWith shiftedOpcodes (.movlr 0x43 5)) ∧
    (∀ m, shiftedOpcodes m ≠ 0x01) ∧ ([0x01] : List Byte)[(0 : Word).toNat]? = some 0x01 ∧
    CodeAt [0x41] 0 ((encodeWith shiftedOpcodes (.movlr 0x43 5)).take 1) ∧
    ([0x41] : List Byte)[(0#16 + BitVec.ofNat 16 1).toNat]? = none := by
  refine ⟨fun a b h => ?_, fun a b h => ?_, ⟨rfl, rfl, rfl, rfl, trivial⟩, fun m => ?_, rfl, ⟨rfl, trivial⟩, rfl⟩
  · revert h; cases a <;> cases b <;> decide
  · revert h; cases a <;> cases b <;> decide
  · cases m <;> decide

/-- StepIsAFunctionOfTheArchitecturalState: a bound buffer, and the architectural step that answers for it. -/
theorem test_wit_arch : (started [0x01, 0x03, 0x00, 0x05]).program = some [0x01, 0x03, 0x00, 0x05] ∧
    (archStep statusMap opcodeMap regIdMap [0x01, 0x03, 0x00, 0x05] State.reset.toArchState).map
      (fun x => (x.1, x.2.r1)) = some (0, 5) := ⟨rfl, by decide⟩

/-- StatusNumbersFollowTheMap: the default map and another are legal, a buffer is bound, and a machine is halted. -/
theorem test_wit_status_maps : LegalStatusMap statusMap ∧ LegalStatusMap otherStatuses ∧
    (started []).program ≠ none ∧ ({ started [] with halted := true } : State).halted = true := by
  refine ⟨fun st => ?_, fun st => ?_, by decide, rfl⟩
  · cases st with
    | continues => decide
    | stop c => cases c <;> decide
  · cases st with
    | continues => decide
    | stop c => cases c <;> decide

end Sys2Proof.Tests
end

section
/-! SUPPORT. R87 and R88 as one fact about an answer, for every instruction and every step under any maps. -/

namespace Sys2Proof.Machine

/-- R87 of an answer: it is a next state, and its status is CONTINUE exactly where it is not halted. -/
def StatusMatchesHalt (o : Result) : Prop :=
  ∃ t, o = .next t ∧ (t.status = .continues ↔ t.halted = false)

theorem statusMatchesHalt_raise (c : Cause) (s : State) : StatusMatchesHalt (.next (raise c s)) :=
  ⟨raise c s, rfl, by simp⟩

theorem statusMatchesHalt_haltedStep {s : State} (h : s.halted = true) : StatusMatchesHalt (.next (haltedStep s)) :=
  ⟨haltedStep s, rfl, by simp [h]⟩

theorem statusMatchesHalt_complete {s : State} (h : s.halted = false) : StatusMatchesHalt (.next (complete s)) :=
  ⟨complete s, rfl, by simp [h]⟩

theorem statusMatchesHalt_exec (i : Instr) {s : State} (h : s.halted = false) : StatusMatchesHalt (exec i s) := by
  rcases exec_cases i s with ⟨c, e⟩ | ⟨u, e, hu⟩ <;> rw [e]
  · exact statusMatchesHalt_raise c s
  · exact statusMatchesHalt_complete (hu.halted.trans h)

/-- R87 and R88: every step with a buffer bound, of a halted or a running machine. -/
theorem statusMatchesHalt_stepWith (om : OpcodeMap) (rm : RegIdMap) {s : State} (hp : s.program ≠ none) :
    StatusMatchesHalt (stepWith om rm s) := by
  obtain ⟨p, hp⟩ := Option.ne_none_iff_exists'.1 hp
  cases h : s.halted with
  | true =>
    rw [stepWith_halted om rm h]
    exact statusMatchesHalt_haltedStep h
  | false =>
    rcases stepWith_cases om rm h hp with ⟨_, e⟩ | ⟨_, _, _, _, _, e⟩ | ⟨_, _, _, e⟩ | ⟨i, _, e⟩ <;> rw [e]
    · exact statusMatchesHalt_raise _ _
    · exact statusMatchesHalt_raise _ _
    · exact statusMatchesHalt_raise _ _
    · exact statusMatchesHalt_exec _ h

end Sys2Proof.Machine
end

section
/-! SUPPORT. The loop of R82 goes by the name of the status; under a legal status map it goes as well by the number. -/

namespace Sys2Proof.Machine

/-- One round of the loop under the three maps. -/
theorem runLoopWith_next (sm : StatusMap) {om : OpcodeMap} {rm : RegIdMap} {s t : State}
    (h : stepWith om rm s = .next t) (k : Nat) :
    runLoopWith sm om rm (k + 1) s =
      if t.status = .continues then runLoopWith sm om rm k t else some (sm t.status, t) := by
  rw [runLoopWith, loopOf_next h]
  split <;> rfl

/-- R82: the loop goes on after the number 0 and returns the first other one. A step that answers no state ends both sides. -/
theorem runLoopWith_succ {sm : StatusMap} (hsm : LegalStatusMap sm) (om : OpcodeMap) (rm : RegIdMap) (fuel : Nat)
    (s : State) :
    runLoopWith sm om rm (fuel + 1) s = (returnOf sm (stepWith om rm s)).bind
      (fun x => if x.1 = 0 then runLoopWith sm om rm fuel x.2 else some x) := by
  cases h : stepWith om rm s with
  | next t => simp [runLoopWith_next sm h, hsm t.status]
  | fault r => simp [runLoopWith, loopOf, numbered, h]
  | refused r => simp [runLoopWith, loopOf, numbered, h]

/-- R10, R87, R88: what a step with a buffer bound returns under a legal status map. -/
theorem returnOf_stepWith {sm : StatusMap} (hsm : LegalStatusMap sm) (om : OpcodeMap) (rm : RegIdMap) {s : State}
    (hp : s.program ≠ none) :
    ∃ n t, returnOf sm (stepWith om rm s) = some (n, t) ∧ n = sm t.status ∧
      (n = 0 ↔ t.halted = false) ∧ (s.halted = true → n = sm (.stop .halt)) := by
  obtain ⟨t, ht, hst⟩ := statusMatchesHalt_stepWith om rm hp
  refine ⟨sm t.status, t, by rw [ht, returnOf_next], rfl, (hsm t.status).trans hst, fun h => ?_⟩
  obtain rfl : haltedStep s = t := by simpa [stepWith_halted om rm h] using ht
  rw [haltedStep_status]

/-- Settles O60: the step by what it returns under a legal status map, the run by one round of its loop and by its run start. -/
theorem statusNumbersFollowTheMap : Obligations.StatusNumbersFollowTheMap := fun sm hsm om rm =>
  ⟨fun _ hp => returnOf_stepWith hsm om rm hp,
    fun _ => rfl,
    fun fuel s => runLoopWith_succ hsm om rm fuel s,
    fun _ s hb => ⟨_, runStart_next hb s, runWith_of_start sm om rm (runStart_next hb s)⟩⟩

end Sys2Proof.Machine
end

section
/-! SUPPORT. The default identifiers as the positions in `Reg.all` (R22), the host's register access (R188), and a new machine
(R180, R35). -/

namespace Sys2Proof

theorem regOfId_eq_some_iff (i : RegId) (r : Reg) : regOfId i = some r ↔ regIdMap r = i :=
  ⟨regOfId_some, fun h => h ▸ regOfId_regIdMap r⟩

/-- R22: the default identifier of a register is its position in the list. -/
theorem all_getElem?_regIdMap (r : Reg) : Reg.all[(regIdMap r).toNat]? = some r := by cases r <;> rfl

theorem Reg.all_nodup : Reg.all.Nodup := by decide

theorem all_getElem?_eq_some_iff (i : RegId) (r : Reg) : Reg.all[i.toNat]? = some r ↔ regIdMap r = i := by
  have hlt : (regIdMap r).toNat < Reg.all.length := (List.getElem?_eq_some_iff.1 (all_getElem?_regIdMap r)).1
  rw [← all_getElem?_regIdMap r, eq_comm, List.getElem?_inj hlt Reg.all_nodup, BitVec.toNat_inj]

/-- The lookup of an identifier under the default map is the lookup of a position. -/
theorem regOfId_eq_getElem? (i : RegId) : regOfId i = Reg.all[i.toNat]? :=
  Option.ext fun r => (regOfId_eq_some_iff i r).trans (all_getElem?_eq_some_iff i r).symm

theorem validReg_iff_toNat_le (i : RegId) : validReg i = true ↔ i.toNat ≤ 6 := by
  rw [validReg, regOfId_eq_getElem?, isSome_getElem?]
  exact Nat.lt_succ_iff

/-- Settles O6: the lookup by identifier is the lookup by position in a list of seven. -/
theorem registerIdentifiersAreZeroToSix : Obligations.RegisterIdentifiersAreZeroToSix := fun i =>
  ⟨fun r => by rw [regOfId_eq_getElem?, Reg.all], validReg_iff_toNat_le i⟩

end Sys2Proof

namespace Sys2Proof.Machine

@[simp] theorem setRegister_some {i : RegId} {r : Reg} (h : regOfId i = some r) (v : Word) (s : State) :
    setRegister i v s = .next (writeReg s r v) := by
  rw [regOfId] at h
  simp [setRegister, setRegisterWith, h]

@[simp] theorem setRegister_none {i : RegId} (h : regOfId i = none) (v : Word) (s : State) :
    setRegister i v s = .refused .invalidHostRegister := by
  rw [regOfId] at h
  simp [setRegister, setRegisterWith, h]

theorem getRegister_eq (i : RegId) (s : State) : getRegister i s = (regOfId i).map (readReg s) := rfl

theorem regsSameExcept_writeReg (s : State) (r : Reg) (v : Word) : RegsSameExcept [r] s (writeReg s r v) :=
  fun _ hq => readReg_writeReg_other s v (by simpa using hq)

theorem bytesSameExcept_of_mem_eq {s t : State} (h : t.mem = s.mem) (addrs : List Word) :
    BytesSameExcept addrs s t := fun _ _ => by rw [h]

/-- Settles O7: a valid identifier writes one register, by the frame of `writeReg`, and an invalid one is refused. -/
theorem registerRoundTrip : Obligations.RegisterRoundTrip := fun i v s =>
  ⟨fun r hr => ⟨writeReg s r v, setRegister_some hr v s, by simp [getRegister_eq, hr], regsSameExcept_writeReg s r v,
      bytesSameExcept_of_mem_eq (writeReg_mem s r v) [], writeReg_halted s r v, writeReg_program s r v,
      writeReg_status s r v⟩,
    fun hi => ⟨setRegister_none hi v s, by simp [getRegister_eq, hi]⟩⟩

@[simp] theorem powerOn_mem (p : PowerOn) : (State.powerOn p).mem = p.mem := rfl
@[simp] theorem powerOn_program (p : PowerOn) : (State.powerOn p).program = none := rfl
@[simp] theorem powerOn_halted (p : PowerOn) : (State.powerOn p).halted = false := rfl
@[simp] theorem powerOn_status (p : PowerOn) : (State.powerOn p).status = .continues := rfl

/-- Every register reads 0 at reset (the model's choice, log entries 6 and 8). -/
theorem readReg_reset (r : Reg) : readReg State.reset r = 0#16 := by cases r <;> rfl

/-- Settles O13: power-on copies the open contents, and reset is a power-on with zeros. -/
theorem powerOnHoldsTheOpenContents : Obligations.PowerOnHoldsTheOpenContents :=
  ⟨fun p => ⟨rfl, rfl, rfl, rfl, rfl, rfl, powerOn_mem p, powerOn_program p⟩, readReg_reset, fun _ => rfl, rfl, rfl⟩

theorem stateInv_powerOn {p : PowerOn} (h : Memory.wf p.mem = true) : StateInv (State.powerOn p) where
  memory := h
  buffer := by simp
  halting := by simp

/-- Settles O16: a new machine has no buffer and is running, so its memory is all there is to ask for. -/
theorem invariantHoldsAtReset : Obligations.InvariantHoldsAtReset :=
  ⟨fun _ => stateInv_powerOn, stateInv_powerOn reset_mem_wf⟩

end Sys2Proof.Machine
end

section
/-! SUPPORT. A memory in the canonical form is determined by what it reads as: its cells are the addresses that do not read as an
unlisted byte. -/

namespace Sys2Proof.Machine

/-- An address that does not read as an unlisted byte has a cell. -/
theorem mem_of_readCell_ne {m : Memory} {a : Nat} (h : readCell m a ≠ Config.unlistedByte) : (a, readCell m a) ∈ m := by
  induction m with
  | nil => exact absurd rfl h
  | cons x m ih =>
    obtain ⟨k, v⟩ := x
    by_cases hk : k = a
    · simp [readCell, hk]
    · simp only [readCell, hk, if_false] at h ⊢
      exact List.mem_cons_of_mem _ (ih h)

/-- Where the addresses rise, no cell hides another. -/
theorem readCell_of_mem {m : Memory} (hs : m.Pairwise (fun c d => c.1 < d.1)) {x : Host.Cell} (hx : x ∈ m) :
    readCell m x.1 = x.2 := by
  induction m with
  | nil => cases hx
  | cons y m ih =>
    obtain ⟨hy, hm⟩ := List.pairwise_cons.1 hs
    rcases List.mem_cons.1 hx with rfl | hx
    · simp [readCell]
    · simpa [readCell, Nat.ne_of_lt (hy x hx)] using ih hm hx

theorem Memory.nodup_of_sorted {m : Memory} (hs : m.Pairwise (fun c d => c.1 < d.1)) : m.Nodup :=
  hs.imp fun hlt heq => absurd (congrArg Prod.fst heq) (Nat.ne_of_lt hlt)

/-- A cell of a canonical memory is a cell of every memory that reads the same. -/
theorem mem_of_reads_eq {m n : Memory} (hm : Memory.wf m = true) (h : ∀ a, memRead8 m a = memRead8 n a)
    {x : Host.Cell} (hx : x ∈ m) : x ∈ n := by
  obtain ⟨hs, hc⟩ := (Memory.wf_iff m).1 hm
  obtain ⟨hlt, hne⟩ := hc x hx
  have haddr : (BitVec.ofNat 16 x.1).toNat = x.1 := Nat.mod_eq_of_lt hlt
  have hn : readCell n x.1 = x.2 := by
    have h' := h (BitVec.ofNat 16 x.1)
    rw [memRead8, memRead8, haddr] at h'
    exact h'.symm.trans (readCell_of_mem hs hx)
  have hmem := mem_of_readCell_ne (m := n) (a := x.1) (by rwa [hn])
  rwa [hn] at hmem

/-- Settles O12: two canonical memories that read the same have the same cells, and a rising list is determined by its members. -/
theorem canonicalMemoriesAreUnique : Obligations.CanonicalMemoriesAreUnique := fun m n hm hn h => by
  have hsm := ((Memory.wf_iff m).1 hm).1
  have hsn := ((Memory.wf_iff n).1 hn).1
  have hperm : m.Perm n := (List.perm_ext_iff_of_nodup (Memory.nodup_of_sorted hsm) (Memory.nodup_of_sorted hsn)).2
    fun _ => ⟨mem_of_reads_eq hm h, mem_of_reads_eq hn fun a => (h a).symm⟩
  exact hperm.eq_of_pairwise (fun _ _ _ _ hlt hgt => absurd hgt (Nat.lt_asymm hlt)) hsm hsn

end Sys2Proof.Machine
end

section
/-! SUPPORT. The instruction fetch reads `pc` and the buffer alone, and no instruction reads the status, so a step is a function of
the architectural state and the buffer (R20, R29, R34). -/

namespace Sys2Proof.Machine

/-- The state with another status in its output field (log entry 4). -/
def withStatus (s : State) (x : Status) : State := { s with status := x }

/-! ### What an update makes of another status -/

@[simp] theorem readReg_withStatus (s : State) (x : Status) (r : Reg) : readReg (withStatus s x) r = readReg s r := by
  cases r <;> rfl

@[simp] theorem withStatus_halted (s : State) (x : Status) : (withStatus s x).halted = s.halted := rfl
@[simp] theorem withStatus_mem (s : State) (x : Status) : (withStatus s x).mem = s.mem := rfl
@[simp] theorem withStatus_program (s : State) (x : Status) : (withStatus s x).program = s.program := rfl

@[simp] theorem writeReg_withStatus (s : State) (x : Status) (r : Reg) (v : Word) :
    writeReg (withStatus s x) r v = withStatus (writeReg s r v) x := by cases r <;> rfl

@[simp] theorem setPc_withStatus (s : State) (x : Status) (a : Word) :
    setPc (withStatus s x) a = withStatus (setPc s a) x := rfl

@[simp] theorem advancePc_withStatus (s : State) (x : Status) (n : Nat) :
    advancePc (withStatus s x) n = withStatus (advancePc s n) x := rfl

@[simp] theorem complete_withStatus (s : State) (x : Status) : complete (withStatus s x) = complete s := rfl
@[simp] theorem raise_withStatus (c : Cause) (s : State) (x : Status) : raise c (withStatus s x) = raise c s := rfl
@[simp] theorem haltedStep_withStatus (s : State) (x : Status) : haltedStep (withStatus s x) = haltedStep s := rfl

/-! ### The meanings -/

@[simp] theorem withReg_withStatus (a : RegId) (s : State) (x : Status) (k : Reg → Result) :
    withReg a (withStatus s x) k = withReg a s k := by
  rcases withReg_cases a s k with ⟨h, e⟩ | ⟨r, h, e⟩ <;> rw [e]
  · rw [withReg_none _ k h, raise_withStatus]
  · exact withReg_some _ k h

@[simp] theorem withRegs2_withStatus (a b : RegId) (s : State) (x : Status) (k : Reg → Reg → Result) :
    withRegs2 a b (withStatus s x) k = withRegs2 a b s k := by simp [withRegs2]

@[simp] theorem withRegs3_withStatus (a b c : RegId) (s : State) (x : Status) (k : Reg → Reg → Reg → Result) :
    withRegs3 a b c (withStatus s x) k = withRegs3 a b c s k := by simp [withRegs3]

@[simp] theorem binaryOp_withStatus (f : Word → Word → Word) (dst left right : RegId) (s : State) (x : Status) :
    binaryOp f dst left right (withStatus s x) = binaryOp f dst left right s := by simp [binaryOp]

@[simp] theorem jumpWhen_withStatus (taken : Bool) (addr : Word) (s : State) (x : Status) :
    jumpWhen taken addr (withStatus s x) = jumpWhen taken addr s := by cases taken <;> rfl

/-- No instruction reads the status: it reads registers and memory, and ends in a status of its own. -/
theorem exec_withStatus (i : Instr) (s : State) (x : Status) : exec i (withStatus s x) = exec i s := by
  cases i with
  | hlt => simp [exec, execHlt]
  | movlr dst value => simp [exec, execMovlr]
  | movrr dst src => simp [exec, execMovrr]
  | movmr dst addr => simp [exec, execMovmr]
  | movrm addr src => simp only [exec, execMovrm, withReg_withStatus, readReg_withStatus, withStatus_mem]; rfl
  | add dst left right => exact binaryOp_withStatus _ dst left right s x
  | sub dst left right => exact binaryOp_withStatus _ dst left right s x
  | mult dst left right => exact binaryOp_withStatus _ dst left right s x
  | div dst left right => simp [exec, execDiv]
  | cmp left right => simp [exec, execCmp]
  | jmp addr => exact jumpWhen_withStatus _ addr s x
  | jeq addr => exact jumpWhen_withStatus _ addr s x
  | jne addr => exact jumpWhen_withStatus _ addr s x
  | jlt addr => exact jumpWhen_withStatus _ addr s x
  | jle addr => exact jumpWhen_withStatus _ addr s x
  | jgt addr => exact jumpWhen_withStatus _ addr s x
  | jge addr => exact jumpWhen_withStatus _ addr s x

/-! ### The fetch and the step -/

/-- The decoder's answer for fetched bytes is the same cause or the same instruction in every state. -/
theorem decodeFetched_cases (om : OpcodeMap) (bs : List Byte) :
    (∃ c, ∀ s, decodeFetched om bs s = .raised c s) ∨ ∃ i, ∀ s, decodeFetched om bs s = .instr i s := by
  cases h : decodeWith om bs with
  | instr i rest => exact .inr ⟨i, fun s => by simp [decodeFetched, h]⟩
  | unknownOpcode op => exact .inl ⟨.unknownOpcode, fun s => by simp [decodeFetched, h]⟩
  | truncated => exact .inl ⟨.truncatedProgram, fun s => by simp [decodeFetched, h]⟩

/-- R51, R59: two states with the same `pc` and the same buffer fetch the same instruction or raise the same cause, and `pc` moves
past the same number of bytes. -/
theorem fetchInstrWith_congr (om : OpcodeMap) {s t : State} {p : List Byte} (hs : s.program = some p)
    (ht : t.program = some p) (hip : t.ip = s.ip) :
    (∃ c n, fetchInstrWith om s = .raised c (advancePc s n) ∧ fetchInstrWith om t = .raised c (advancePc t n)) ∨
      ∃ i n, fetchInstrWith om s = .instr i (advancePc s n) ∧ fetchInstrWith om t = .instr i (advancePc t n) := by
  rcases fetchInstrWith_cases om hs with ⟨hn, e⟩ | ⟨op, bs, hc, hl, hn, e⟩ | ⟨op, bs, hc, hl, e⟩
  · refine .inl ⟨.truncatedProgram, 0, by rw [e, advancePc_zero], ?_⟩
    rw [fetchInstrWith_no_opcode om ht (hip ▸ hn), advancePc_zero]
  · exact .inl ⟨_, _, e, fetchInstrWith_cut om ht (hip ▸ hc) hl (hip ▸ hn)⟩
  · have e' := fetchInstrWith_done om ht (hip ▸ hc) hl
    rcases decodeFetched_cases om (op :: bs) with ⟨c, hd⟩ | ⟨i, hd⟩
    · exact .inl ⟨c, _, e.trans (hd _), e'.trans (hd _)⟩
    · exact .inr ⟨i, _, e.trans (hd _), e'.trans (hd _)⟩

/-- R34 under any maps: a step does not read the status. -/
theorem stepWith_withStatus (om : OpcodeMap) (rm : RegIdMap) (s : State) (x : Status) :
    stepWith om rm (withStatus s x) = stepWith om rm s := by
  cases h : s.halted with
  | true => rw [stepWith_halted om rm h, stepWith_halted om rm (s := withStatus s x) h, haltedStep_withStatus]
  | false =>
    cases hp : s.program with
    | none => rw [stepWith_unbound om rm h hp, stepWith_unbound om rm (s := withStatus s x) h hp]
    | some p =>
      rcases fetchInstrWith_congr om hp (t := withStatus s x) hp rfl with ⟨c, n, e, e'⟩ | ⟨i, n, e, e'⟩
      · rw [stepWith_raised om rm h e, stepWith_raised om rm (s := withStatus s x) h e', advancePc_withStatus,
          raise_withStatus]
      · rw [stepWith_instr om rm h e, stepWith_instr om rm (s := withStatus s x) h e', advancePc_withStatus,
          exec_withStatus]

/-- Settles O26: the default maps of `stepWith_withStatus`. -/
theorem statusIsNeverRead : Obligations.StatusIsNeverRead := stepWith_withStatus opcodeMap regIdMap

/-- An instruction leaves the buffer (R29). -/
theorem exec_program {i : Instr} {s t : State} (h : exec i s = .next t) : t.program = s.program := by
  rcases exec_cases i s with ⟨c, e⟩ | ⟨u, e, hu⟩ <;> rw [e] at h <;> cases h
  · exact raise_program c s
  · exact (complete_program u).trans hu.program

/-- R29, R59: no step changes the binding of the buffer. -/
theorem stepWith_program {om : OpcodeMap} {rm : RegIdMap} {s t : State} (h : stepWith om rm s = .next t) :
    t.program = s.program := by
  cases hh : s.halted with
  | true =>
    rw [stepWith_halted om rm hh] at h
    cases h
    exact haltedStep_program s
  | false =>
    cases hp : s.program with
    | none =>
      rw [stepWith_unbound om rm hh hp] at h
      cases h
    | some p =>
      rw [← hp]
      rcases stepWith_cases om rm hh hp with ⟨_, e⟩ | ⟨_, _, _, _, _, e⟩ | ⟨_, _, _, e⟩ | ⟨i, _, e⟩ <;> rw [e] at h
      · cases h; rfl
      · cases h; rfl
      · cases h; rfl
      · exact (exec_program h).trans (advancePc_program s _)

/-- The architectural step is the step of a state with that architectural state and that buffer, whatever its status. -/
theorem archStep_eq (sm : StatusMap) (om : OpcodeMap) (rm : RegIdMap) {s t : State} {p : List Byte}
    (hp : s.program = some p) (h : stepWith om rm s = .next t) :
    archStep sm om rm p s.toArchState = some (sm t.status, t.toArchState) := by
  have hs : ({ toArchState := s.toArchState, program := some p, status := .continues } : State) =
      withStatus s .continues := by rw [← hp]; rfl
  rw [archStep, hs, stepWith_withStatus, h, returnOf_next, Option.map_some]

/-- R20: the architectural state is its three components and nothing else. -/
theorem archState_eq {a b : ArchState} (hr : a.toRegFile = b.toRegFile) (hm : a.mem = b.mem)
    (hh : a.halted = b.halted) : a = b := by
  cases a; cases b
  cases hr; cases hm; cases hh
  rfl

/-- Settles O59: a step with a buffer bound answers (R87, R88), does not read the status, and leaves the buffer. -/
theorem stepIsAFunctionOfTheArchitecturalState : Obligations.StepIsAFunctionOfTheArchitecturalState := by
  refine ⟨fun _ _ => archState_eq, fun om rm s p hp => ?_⟩
  obtain ⟨t, ht, _⟩ := statusMatchesHalt_stepWith om rm (s := s) (by simp [hp])
  exact ⟨t, ht, fun sm => archStep_eq sm om rm hp ht, (stepWith_program ht).trans hp⟩

end Sys2Proof.Machine
end

section
/-! SUPPORT. Data memory as the host and the instructions see it (R43 to R47): what each byte holds after a 16-bit write, a 32-bit
write and a sequence of bytes, and what a wide read composes. -/

namespace Sys2Proof.Machine

/-! ### The two words of a 32-bit value -/

/-- The number two words make, the first the more significant (R44, R52). -/
theorem toNat_append_words (hi lo : Word) : (hi ++ lo : DWord).toNat = hi.toNat * 65536 + lo.toNat := by
  rw [BitVec.toNat_append, ← Nat.shiftLeft_add_eq_or_of_lt lo.isLt, Nat.shiftLeft_eq]

theorem toNat_extract_high (v : DWord) : (v.extractLsb' 16 16).toNat = v.toNat / 2 ^ 16 := by
  have := v.isLt
  simp only [BitVec.extractLsb'_toNat, Nat.shiftRight_eq_div_pow]
  omega

theorem toNat_extract_low (v : DWord) : (v.extractLsb' 0 16).toNat = v.toNat % 2 ^ 16 := by
  simp

theorem append_extract_words (v : DWord) : (v.extractLsb' 16 16 ++ v.extractLsb' 0 16 : DWord) = v := by
  apply BitVec.eq_of_toNat_eq
  rw [toNat_append_words, toNat_extract_high, toNat_extract_low]
  omega

/-! ### Reads after writes -/

/-- A 16-bit read gives back a 16-bit write at the same address, the wrapping one included (R47). -/
theorem memRead16_memWrite16 (m : Memory) (a v : Word) : memRead16 (memWrite16 m a v) a = v := by
  simp [memRead16, memRead8_memWrite16]

/-- A 16-bit write two bytes further on leaves a word as it was. -/
theorem memRead16_memWrite16_next (m : Memory) (a v : Word) :
    memRead16 (memWrite16 m (a + 2#16) v) a = memRead16 m a := by
  simp [memRead16, memRead8_memWrite16, BitVec.add_assoc]

theorem memRead32_memWrite32 (m : Memory) (a : Word) (v : DWord) : memRead32 (memWrite32 m a v) a = v := by
  rw [memRead32, memWrite32, memRead16_memWrite16_next, memRead16_memWrite16, memRead16_memWrite16, append_extract_words]

/-- Settles O8: a write of either width is undone by the read of its own width. -/
theorem readReturnsLastWrite : Obligations.ReadReturnsLastWrite := fun m a =>
  ⟨fun v => by rw [memRead8_memWrite8, if_pos rfl], memRead16_memWrite16 m a, memRead32_memWrite32 m a⟩

/-- Settles O9: a wide read is two narrower ones put together. -/
theorem wideReadsAreBigEndian : Obligations.WideReadsAreBigEndian := fun _ _ =>
  ⟨toNat_wordOfBytes _ _, toNat_append_words _ _⟩

/-! ### The bytes after a write (R45) -/

/-- The two bytes of a 16-bit write as numbers, the more significant at the lower address, and no other byte changed. -/
theorem toNat_memRead8_memWrite16 (m : Memory) (a v c : Word) : (memRead8 (memWrite16 m a v) c).toNat =
    if c = a then v.toNat / 256 else if c = a + 1#16 then v.toNat % 256 else (memRead8 m c).toNat := by
  rw [memRead8_memWrite16]
  by_cases h0 : c = a
  · simp [h0, toNat_highByte]
  by_cases h1 : c = a + 1#16
  · simp [h1, toNat_lowByte]
  · simp [h0, h1]

/-- The four bytes of a 32-bit write: it is a 16-bit write of the high word and then, two bytes further on, of the low word. -/
theorem toNat_memRead8_memWrite32 (m : Memory) (a c : Word) (v : DWord) : (memRead8 (memWrite32 m a v) c).toNat =
    if c = a then v.toNat / 2 ^ 24
    else if c = a + 1#16 then v.toNat / 2 ^ 16 % 256
    else if c = a + 2#16 then v.toNat / 2 ^ 8 % 256
    else if c = a + 3#16 then v.toNat % 256
    else (memRead8 m c).toNat := by
  have h3 : a + 2#16 + 1#16 = a + 3#16 := BitVec.add_assoc a 2#16 1#16
  rw [memWrite32, toNat_memRead8_memWrite16, toNat_memRead8_memWrite16, h3, toNat_extract_high, toNat_extract_low]
  by_cases h0 : c = a
  · simp [h0, Nat.div_div_eq_div_mul]
  by_cases h1 : c = a + 1#16
  · simp [h1]
  by_cases h2 : c = a + 2#16
  · have hmid : v.toNat % 2 ^ 16 / 256 = v.toNat / 2 ^ 8 % 256 := by omega
    simpa [h2] using hmid
  · simp [h0, h1, h2]

/-- Settles O10: one, two and four bytes, each width from the one below it. -/
theorem writesPlaceBytesBigEndian : Obligations.WritesPlaceBytesBigEndian := fun m a =>
  ⟨fun v c => memRead8_memWrite8 m a c v, fun v c => toNat_memRead8_memWrite16 m a v c,
    fun v c => toNat_memRead8_memWrite32 m a c v⟩

/-! ### A sequence of bytes (R46) -/

/-- Writing one sequence after another is writing the second from where the first ends. -/
theorem memWriteBytes_append (bs cs : List Byte) : ∀ (m : Memory) (c : Word),
    memWriteBytes m c (bs ++ cs) = memWriteBytes (memWriteBytes m c bs) (c + BitVec.ofNat 16 bs.length) cs := by
  induction bs with
  | nil => intro m c; simp [memWriteBytes]
  | cons b bs ih =>
    intro m c
    rw [List.cons_append, memWriteBytes, ih, List.length_cons, address_succ c bs.length]
    rfl

@[simp] theorem hostWriteBytes_cursor (c : Word) (bs : List Byte) (s : State) :
    (hostWriteBytes c bs s).2 = c + BitVec.ofNat 16 bs.length := rfl

@[simp] theorem hostWriteBytes_mem (c : Word) (bs : List Byte) (s : State) :
    (hostWriteBytes c bs s).1.mem = memWriteBytes s.mem c bs := rfl

@[simp] theorem readReg_hostWriteBytes (c : Word) (bs : List Byte) (s : State) (r : Reg) :
    readReg (hostWriteBytes c bs s).1 r = readReg s r := by cases r <;> rfl

theorem hostWriteBytes_nil (c : Word) (s : State) : hostWriteBytes c [] s = (s, c) := by
  simp [hostWriteBytes, memWriteBytes]

/-- One more byte goes to where the cursor stood. -/
theorem memRead8_hostWriteBytes_concat (c : Word) (bs : List Byte) (b : Byte) (s : State) (a : Word) :
    memRead8 (hostWriteBytes c (bs ++ [b]) s).1.mem a =
      if a = (hostWriteBytes c bs s).2 then b else memRead8 (hostWriteBytes c bs s).1.mem a := by
  rw [hostWriteBytes_mem, memWriteBytes_append, memWriteBytes, memWriteBytes, memRead8_memWrite8]
  rfl

/-- Settles O11: a sequence with one more byte is a sequence and then a byte at its cursor. -/
theorem writeBytesLaysOutASequence : Obligations.WriteBytesLaysOutASequence := fun c s =>
  ⟨hostWriteBytes_nil c s, fun bs b =>
    ⟨by simp [BitVec.ofNat_add, BitVec.add_assoc], readReg_hostWriteBytes c (bs ++ [b]) s,
      memRead8_hostWriteBytes_concat c bs b s⟩⟩

end Sys2Proof.Machine
end

section
/-! SUPPORT. The byte fetch and the wide fetches (R51 to R53), and the instruction fetch apart from data memory (R59). -/

namespace Sys2Proof.Machine

/-- Code that lies at an address is its first part there and the rest after it. -/
theorem codeAt_append {p : List Byte} (bs cs : List Byte) : ∀ a : Word,
    CodeAt p a (bs ++ cs) ↔ CodeAt p a bs ∧ CodeAt p (a + BitVec.ofNat 16 bs.length) cs := by
  induction bs with
  | nil => intro a; simp [CodeAt]
  | cons b bs ih =>
    intro a
    rw [List.cons_append, CodeAt, CodeAt, ih, List.length_cons, address_succ a bs.length, and_assoc]

/-- Settles O19: the byte at `pc` is there exactly where `pc` is below the length of the buffer. -/
theorem fetchOfAByte : Obligations.FetchOfAByte := fun s _ hp =>
  ⟨fun h => ⟨advancePc s 1, fetch8_done hp (List.getElem?_eq_getElem h), BitVec.toNat_add s.ip 1#16, rfl⟩,
    fun h => fetch8_truncated hp (List.getElem?_eq_none h)⟩

theorem fetch16_done {s : State} {p : List Byte} {hi lo : Byte} (hp : s.program = some p)
    (h : CodeAt p s.ip [hi, lo]) : fetch16 s = .done (wordOfBytes hi lo) (advancePc s 2) := by
  obtain ⟨hhi, hlo, _⟩ := h
  rw [fetch16, fetch8_done hp hhi, Fetched.bind_done, fetch8_done (s := advancePc s 1) hp hlo, Fetched.bind_done,
    advancePc_advancePc]

theorem fetch32_done {s : State} {p : List Byte} {a b c d : Byte} (hp : s.program = some p)
    (h : CodeAt p s.ip [a, b, c, d]) :
    fetch32 s = .done (wordOfBytes a b ++ wordOfBytes c d) (advancePc s 4) := by
  obtain ⟨hab, hcd⟩ := (codeAt_append [a, b] [c, d] s.ip).1 h
  rw [fetch32, fetch16_done hp hab, Fetched.bind_done, fetch16_done (s := advancePc s 2) hp hcd, Fetched.bind_done,
    advancePc_advancePc]

/-- A 16-bit fetch whose second byte is missing keeps the first one consumed (R52). -/
theorem fetch16_cut {s : State} {p : List Byte} {hi : Byte} (hp : s.program = some p)
    (hhi : p[s.ip.toNat]? = some hi) (hlo : p[(s.ip + 1#16).toNat]? = none) :
    fetch16 s = .truncated (advancePc s 1) := by
  rw [fetch16, fetch8_done hp hhi, Fetched.bind_done, fetch8_truncated (s := advancePc s 1) hp hlo,
    Fetched.bind_truncated]

/-- Settles O20: each wide fetch is two shorter ones, as numbers. -/
theorem wideFetchesAreBigEndian : Obligations.WideFetchesAreBigEndian := fun _ _ hp =>
  ⟨fun hi lo h => ⟨_, fetch16_done hp h, toNat_wordOfBytes hi lo⟩,
    fun a b c d h => ⟨_, fetch32_done hp h, by simp only [toNat_append_words, toNat_wordOfBytes]⟩,
    fun _ => fetch16_cut hp⟩

/-- R40, R59: an instruction fetch that answers gives the same answer with any other contents of data memory, and leaves those
contents. -/
theorem fetchInstr_mem_cases (s : State) (m : Memory) : fetchInstr s = .unbound ∨
    (∃ c n, fetchInstr s = .raised c (advancePc s n) ∧
      fetchInstr { s with mem := m } = .raised c { advancePc s n with mem := m }) ∨
    ∃ i n, fetchInstr s = .instr i (advancePc s n) ∧
      fetchInstr { s with mem := m } = .instr i { advancePc s n with mem := m } := by
  rcases Option.eq_none_or_eq_some s.program with hp | ⟨p, hp⟩
  · exact .inl (fetchInstr_unbound hp)
  · exact .inr (fetchInstrWith_congr opcodeMap hp (t := { s with mem := m }) hp rfl)

/-- Settles O27: the fetch reads `pc` and the buffer alone (`fetchInstrWith_congr`), and a step keeps the buffer. -/
theorem fetchIsSeparateFromDataMemory : Obligations.FetchIsSeparateFromDataMemory := by
  refine ⟨fun s m => ?_, fun _ _ => stepWith_program⟩
  rcases fetchInstr_mem_cases s m with e | ⟨c, n, e, e'⟩ | ⟨i, n, e, e'⟩ <;> rw [e]
  · exact ⟨fun _ _ h => (nomatch h), fun _ _ h => (nomatch h)⟩
  · exact ⟨fun _ _ h => (nomatch h), fun _ _ h => by cases h; exact e'⟩
  · exact ⟨fun _ _ h => by cases h; exact e', fun _ _ h => (nomatch h)⟩

end Sys2Proof.Machine
end

section
/-! SUPPORT. The decoder against the encoder under any opcode map (R60 to R67): a byte with a mnemonic parses its operands, a byte
without one asks for none, and operand bytes either end too early or are those of one instruction and what follows. -/

namespace Sys2Proof

/-- A byte given to no mnemonic looks up to none. -/
theorem mnemonicOf_eq_none {om : OpcodeMap} {op : Byte} (h : ∀ m, om m ≠ op) : mnemonicOf om op = none := by
  simpa [mnemonicOf] using fun m _ => h m

theorem decodeWith_map {om : OpcodeMap} (hom : Function.Injective om) (m : Mnemonic) (bs : List Byte) :
    decodeWith om (om m :: bs) = parseOperands m bs := by
  simp [decodeWith, mnemonicOf_map hom m]

/-- Settles O1: the opcode byte looks up to its mnemonic, and the mnemonic's operands parse back. -/
theorem decodeOfEncodeGivesInstruction : Obligations.DecodeOfEncodeGivesInstruction := fun om hom i rest =>
  calc decodeWith om (encodeWith om i ++ rest)
    _ = parseOperands i.mnemonic (operandsOf i ++ rest) := decodeWith_map hom i.mnemonic (operandsOf i ++ rest)
    _ = .instr i rest := parseOperands_operandsOf i rest

/-! ### Bytes that end too early (R68) -/

theorem parseRW_of_short (mk : RegId → Word → Instr) : ∀ {bs : List Byte}, bs.length < 3 → parseRW mk bs = .truncated
  | [], _ | [_], _ | [_, _], _ => rfl

theorem parseWR_of_short (mk : Word → RegId → Instr) : ∀ {bs : List Byte}, bs.length < 3 → parseWR mk bs = .truncated
  | [], _ | [_], _ | [_, _], _ => rfl

theorem parseRR_of_short (mk : RegId → RegId → Instr) : ∀ {bs : List Byte}, bs.length < 2 → parseRR mk bs = .truncated
  | [], _ | [_], _ => rfl

theorem parseRRR_of_short (mk : RegId → RegId → RegId → Instr) :
    ∀ {bs : List Byte}, bs.length < 3 → parseRRR mk bs = .truncated
  | [], _ | [_], _ | [_, _], _ => rfl

theorem parseW_of_short (mk : Word → Instr) : ∀ {bs : List Byte}, bs.length < 2 → parseW mk bs = .truncated
  | [], _ | [_], _ => rfl

theorem parseOperands_of_short {m : Mnemonic} {bs : List Byte} (h : bs.length < operandBytes (formatOf m)) :
    parseOperands m bs = .truncated := by
  cases m with
  | hlt => exact absurd h (Nat.not_lt_zero _)
  | movlr => exact parseRW_of_short _ h
  | movrr => exact parseRR_of_short _ h
  | movmr => exact parseRW_of_short _ h
  | movrm => exact parseWR_of_short _ h
  | add => exact parseRRR_of_short _ h
  | sub => exact parseRRR_of_short _ h
  | mult => exact parseRRR_of_short _ h
  | div => exact parseRRR_of_short _ h
  | cmp => exact parseRR_of_short _ h
  | jmp => exact parseW_of_short _ h
  | jeq => exact parseW_of_short _ h
  | jne => exact parseW_of_short _ h
  | jlt => exact parseW_of_short _ h
  | jle => exact parseW_of_short _ h
  | jgt => exact parseW_of_short _ h
  | jge => exact parseW_of_short _ h

/-! ### Bytes that hold an instruction (R67) -/

/-- Enough operand bytes are those of one instruction and what follows them. -/
theorem eq_operandsOf_append {m : Mnemonic} {bs : List Byte} (h : operandBytes (formatOf m) ≤ bs.length) :
    ∃ i rest, i.mnemonic = m ∧ bs = operandsOf i ++ rest := by
  obtain ⟨i, _, hm, ho⟩ := parseOperands_exact m (bs.take (operandBytes (formatOf m))) (List.length_take_of_le h)
  exact ⟨i, bs.drop (operandBytes (formatOf m)), hm, by rw [ho, List.take_append_drop]⟩

theorem eq_of_parseOperands {m : Mnemonic} {bs : List Byte} {i : Instr} {rest : List Byte}
    (h : parseOperands m bs = .instr i rest) : i.mnemonic = m ∧ bs = operandsOf i ++ rest := by
  rcases Nat.lt_or_ge bs.length (operandBytes (formatOf m)) with hs | hl
  · rw [parseOperands_of_short hs] at h
    cases h
  · obtain ⟨j, tail, rfl, rfl⟩ := eq_operandsOf_append hl
    rw [parseOperands_operandsOf] at h
    cases h
    exact ⟨rfl, rfl⟩

/-- Settles O2: the opcode byte is its mnemonic's, and the operands are those of the instruction (`eq_of_parseOperands`). -/
theorem decodedBytesAreTheEncoding : Obligations.DecodedBytesAreTheEncoding := by
  intro om bs i rest h
  cases bs with
  | nil => cases h
  | cons op bs =>
    cases hm : mnemonicOf om op with
    | none => simp [decodeWith, hm] at h
    | some m =>
      obtain ⟨rfl, rfl⟩ := eq_of_parseOperands (m := m) (by simpa [decodeWith, hm] using h)
      rw [encodeWith, mnemonicOf_some hm, List.cons_append]

/-! ### The length of an instruction (R65) -/

theorem operandCount_map {om : OpcodeMap} (hom : Function.Injective om) (m : Mnemonic) :
    operandCount om (om m) = operandBytes (formatOf m) := by
  simp [operandCount, mnemonicOf_map hom m]

theorem operandCount_of_unknown {om : OpcodeMap} {op : Byte} (h : ∀ m, om m ≠ op) : operandCount om op = 0 := by
  simp [operandCount, mnemonicOf_eq_none h]

theorem operandsOf_length_eq_operandCount {om : OpcodeMap} (hom : Function.Injective om) (i : Instr) :
    (operandsOf i).length = operandCount om (om i.mnemonic) :=
  (operandsOf_length i).trans (operandCount_map hom i.mnemonic).symm

/-- R65's table: 1, 3 or 4 bytes by the mnemonic. -/
theorem one_add_operandBytes (m : Mnemonic) : 1 + operandBytes (formatOf m) =
    if m = .hlt then 1 else if m ∈ [.movlr, .movmr, .movrm, .add, .sub, .mult, .div] then 4 else 3 := by
  cases m <;> decide

/-- Settles O4: an opcode byte asks for its mnemonic's operand bytes, and an unknown one for none. -/
theorem lengthIsAFunctionOfTheOpcode : Obligations.LengthIsAFunctionOfTheOpcode := fun _ hom =>
  ⟨fun i => by rw [encodeWith, List.length_cons, operandsOf_length_eq_operandCount hom, Nat.add_comm],
    fun m => by rw [operandCount_map hom, one_add_operandBytes],
    fun _ => operandCount_of_unknown⟩

end Sys2Proof
end

section
/-! SUPPORT. The step under any injective maps (R62, R22; log entry 21): renaming identifiers, and what a step does where an
instruction lies at `pc`, where the opcode byte is unknown, and where the instruction is cut short. -/

namespace Sys2Proof

/-- Under an injective map a register's own identifier looks up to it. -/
theorem regOfIdWith_map {rm : RegIdMap} (hrm : Function.Injective rm) (r : Reg) : regOfIdWith rm (rm r) = some r := by
  cases h : regOfIdWith rm (rm r) with
  | none => simpa using List.find?_eq_none.1 h r r.mem_all
  | some q => rw [hrm (regOfIdWith_some h)]

@[simp] theorem mapRegIds_mnemonic (f : RegId → RegId) (i : Instr) : (i.mapRegIds f).mnemonic = i.mnemonic := by
  cases i <;> rfl

@[simp] theorem mapRegIds_regIds (f : RegId → RegId) (i : Instr) : (i.mapRegIds f).regIds = i.regIds.map f := by
  cases i <;> rfl

/-- A renaming that keeps the identifiers of an instruction keeps the instruction: its other operands are not renamed. -/
theorem mapRegIds_eq_self {f : RegId → RegId} {i : Instr} (h : ∀ a ∈ i.regIds, f a = a) : i.mapRegIds f = i := by
  cases i with
  | hlt | jmp | jeq | jne | jlt | jle | jgt | jge => rfl
  | movlr | movrr | movmr | movrm | add | sub | mult | div | cmp =>
    simpa [Instr.mapRegIds, Instr.regIds] using h

end Sys2Proof

namespace Sys2Proof.Machine

theorem stopped_raise_advancePc (c : Cause) (s : State) (n : Nat) :
    Stopped c (s.ip + BitVec.ofNat 16 n) s (raise c (advancePc s n)) where
  regs r hr := (readReg_raise c _ r).trans (readReg_advancePc s n r (by simpa using hr))
  pc := rfl
  bytes := bytesSameExcept_of_mem_eq rfl []
  halted := rfl
  program := rfl
  status := rfl

section

variable {om : OpcodeMap} {s : State} {p : List Byte}

/-- The instruction fetch where the encoding of an instruction lies at `pc`. -/
theorem fetchInstrWith_encodeWith (hom : Function.Injective om) (hp : s.program = some p) {i : Instr}
    (hc : CodeAt p s.ip (encodeWith om i)) :
    fetchInstrWith om s = .instr i (advancePc s (encodeWith om i).length) := by
  have hd : decodeWith om (encodeWith om i) = .instr i [] := by
    simpa using decodeOfEncodeGivesInstruction om hom i []
  rw [fetchInstrWith_done om hp hc (operandsOf_length_eq_operandCount hom i), ← encodeWith, decodeFetched, hd]

/-- The instruction fetch where the opcode byte is unknown: no operand byte is fetched (R66). -/
theorem fetchInstrWith_unknown (hp : s.program = some p) {op : Byte} (hb : p[s.ip.toNat]? = some op)
    (hop : ∀ m, om m ≠ op) : fetchInstrWith om s = .raised .unknownOpcode (advancePc s 1) := by
  rw [fetchInstrWith_done om (bs := []) hp ⟨hb, trivial⟩ (operandCount_of_unknown hop).symm, decodeFetched, decodeWith,
    mnemonicOf_eq_none hop]
  rfl

/-- The instruction fetch where only the first `k` bytes of an instruction are there: it stops at the missing one (R156). -/
theorem fetchInstrWith_cutShort (hom : Function.Injective om) (hp : s.program = some p) {i : Instr} {k : Nat}
    (hk : k < (encodeWith om i).length) (hc : CodeAt p s.ip ((encodeWith om i).take k))
    (hn : p[(s.ip + BitVec.ofNat 16 k).toNat]? = none) :
    fetchInstrWith om s = .raised .truncatedProgram (advancePc s k) := by
  cases k with
  | zero => rw [fetchInstrWith_no_opcode om hp (by simpa using hn), advancePc_zero]
  | succ k =>
    have hk' : k < (operandsOf i).length := Nat.lt_of_succ_lt_succ hk
    have hl : ((operandsOf i).take k).length = k := List.length_take_of_le hk'.le
    have hcut := fetchInstrWith_cut om hp (bs := (operandsOf i).take k) hc
      (by rwa [hl, ← operandsOf_length_eq_operandCount hom]) (by rwa [List.length_cons, hl])
    rwa [List.length_cons, hl] at hcut

end

/-- Settles O58: the maps' own facts, then the three instruction fetches and the step that each one makes. -/
theorem mapsOnlyRenumber : Obligations.MapsOnlyRenumber := fun om rm hom hrm =>
  ⟨regOfIdWith_map hrm, defaultId_names rm,
    fun f i => ⟨mapRegIds_mnemonic f i, mapRegIds_regIds f i, mapRegIds_eq_self⟩,
    fun s _ hh hp =>
      ⟨fun _ hc => stepWith_instr om rm hh (fetchInstrWith_encodeWith hom hp hc),
        fun _ hb hop => ⟨_, stepWith_raised om rm hh (fetchInstrWith_unknown hp hb hop),
          stopped_raise_advancePc .unknownOpcode s 1⟩,
        fun _ k hk hc hn => ⟨_, stepWith_raised om rm hh (fetchInstrWith_cutShort hom hp hk hc hn),
          stopped_raise_advancePc .truncatedProgram s k⟩⟩⟩

end Sys2Proof.Machine
end

section
/-! SUPPORT. Every outcome of a step that answers a next state, and the invariant of the machine along it (R87, R88, R189). -/

namespace Sys2Proof.Machine

/-- Everything a step that answers can do: a halted machine returns HALT, and a running one fetches and then takes a cause or
completes an instruction. -/
theorem step_next_cases {s t : State} (h : step s = .next t) :
    (s.halted = true ∧ t = haltedStep s) ∨
      (s.halted = false ∧ ∃ n, (∃ c, t = raise c (advancePc s n)) ∨
        ∃ u, t = complete u ∧ Effect (advancePc s n) u) := by
  cases hh : s.halted with
  | true => exact .inl ⟨rfl, by simpa [step_halted hh] using h.symm⟩
  | false =>
    refine .inr ⟨rfl, ?_⟩
    cases hp : s.program with
    | none => rw [step_unbound hh hp] at h; cases h
    | some p =>
      rcases step_cases hh hp with ⟨_, e⟩ | ⟨_, _, _, _, _, e⟩ | ⟨_, _, _, e⟩ | ⟨i, _, e⟩ <;> rw [e] at h
      · cases h; exact ⟨0, .inl ⟨_, by rw [advancePc_zero]⟩⟩
      · cases h; exact ⟨_, .inl ⟨_, rfl⟩⟩
      · cases h; exact ⟨_, .inl ⟨_, rfl⟩⟩
      · refine ⟨(encode i).length, ?_⟩
        rcases exec_cases i (advancePc s (encode i).length) with ⟨c, e⟩ | ⟨u, e, hu⟩ <;> rw [e] at h <;> cases h
        · exact .inl ⟨c, rfl⟩
        · exact .inr ⟨u, rfl, hu⟩

/-- An instruction leaves data memory in its canonical form (R28). -/
theorem Effect.mem_wf {s u : State} (h : Effect s u) (hs : Memory.wf s.mem = true) : Memory.wf u.mem = true := by
  rcases h.mem with e | ⟨a, v, e⟩ <;> rw [e]
  · exact hs
  · exact memWrite16_wf s.mem a v hs

theorem stateInv_haltedStep {s : State} (h : s.halted = true) (hs : StateInv s) : StateInv (haltedStep s) where
  memory := hs.memory
  buffer := hs.buffer
  halting := by simp [h]

theorem stateInv_raise {s : State} (c : Cause) (n : Nat) (hs : StateInv s) : StateInv (raise c (advancePc s n)) where
  memory := hs.memory
  buffer := hs.buffer
  halting := by simp

theorem stateInv_complete {s u : State} {n : Nat} (h : s.halted = false) (hu : Effect (advancePc s n) u)
    (hs : StateInv s) : StateInv (complete u) where
  memory := hu.mem_wf hs.memory
  buffer p hp := hs.buffer p (hu.program.symm.trans hp)
  halting := by simp [hu.halted, h]

/-- Settles O17: each of the three ends of a step keeps the invariant. -/
theorem everyStepKeepsTheInvariant : Obligations.EveryStepKeepsTheInvariant := by
  intro s t hs h
  rcases step_next_cases h with ⟨hh, rfl⟩ | ⟨hh, n, ⟨c, rfl⟩ | ⟨u, rfl, hu⟩⟩
  · exact stateInv_haltedStep hh hs
  · exact stateInv_raise c n hs
  · exact stateInv_complete hh hu hs

/-- Settles O24: `statusMatchesHalt_stepWith` under the default maps, split by the halted flag. -/
theorem everyStepContinuesOrHalts : Obligations.EveryStepContinuesOrHalts := by
  intro s hp
  obtain ⟨t, ht, hst⟩ := statusMatchesHalt_stepWith opcodeMap regIdMap hp
  refine ⟨t, ht, ?_⟩
  cases hh : t.halted with
  | false => exact .inl ⟨hst.2 hh, rfl⟩
  | true => exact .inr ⟨by simp [hst, hh], rfl⟩

theorem stopped_haltedStep {s : State} (h : s.halted = true) : Stopped .halt s.ip s (haltedStep s) where
  regs r _ := readReg_haltedStep s r
  pc := rfl
  bytes := bytesSameExcept_of_mem_eq rfl []
  halted := h
  program := rfl
  status := rfl

/-- Settles O22: such a step returns HALT and is over. -/
theorem haltedStepChangesNothing : Obligations.HaltedStepChangesNothing := fun _ h =>
  ⟨_, step_halted h, stopped_haltedStep h⟩

/-- Where the encoding of an instruction lies at `pc`, the step of a running machine executes it with `pc` past it (R81, R83). -/
theorem step_of_code {s : State} {p : List Byte} {i : Instr} (h : s.halted = false) (hp : s.program = some p)
    (hc : CodeAt p s.ip (encode i)) : step s = exec i (advancePc s (encode i).length) :=
  step_instr h (fetchInstrWith_encodeWith opcodeMap_injective hp hc)

/-- Settles O21: bytes that decode to an instruction are its encoding. -/
theorem stepRunsTheDecodedInstruction : Obligations.StepRunsTheDecodedInstruction := by
  intro s p bs i h hp hc hd
  obtain rfl : bs = encode i := by simpa [encode] using decodedBytesAreTheEncoding opcodeMap bs i [] hd
  exact step_of_code h hp hc

end Sys2Proof.Machine

namespace Sys2Proof

/-- The operands of a known mnemonic are an instruction of it, or end too early: its opcode byte is never unknown. -/
theorem parseOperands_ne_unknownOpcode (m : Mnemonic) (bs : List Byte) (op : Byte) :
    parseOperands m bs ≠ .unknownOpcode op := by
  rcases Nat.lt_or_ge bs.length (operandBytes (formatOf m)) with hs | hl
  · simp [parseOperands_of_short hs]
  · obtain ⟨i, rest, rfl, rfl⟩ := eq_operandsOf_append hl
    simp [parseOperands_operandsOf]

/-- Settles O5: the opcode byte is a mnemonic's, which alone says how its operands parse, or it is none's. -/
theorem dispatchIsByTheOpcodeByteAlone : Obligations.DispatchIsByTheOpcodeByteAlone := by
  intro om hom op
  by_cases h : ∃ m, om m = op
  · obtain ⟨m, rfl⟩ := h
    refine .inl ⟨m, rfl, fun _ hm => hom hm, fun bs i rest hd => ?_, fun bs x => ?_⟩
    · rw [decodeWith_map hom] at hd
      exact (eq_of_parseOperands hd).1
    · rw [decodeWith_map hom]
      exact parseOperands_ne_unknownOpcode m bs x
  · have hop : ∀ m, om m ≠ op := not_exists.1 h
    exact .inr ⟨hop, fun bs => by rw [decodeWith, mnemonicOf_eq_none hop]⟩

end Sys2Proof
end

section
/-! SUPPORT. What each instruction with valid operands answers, and everything `exec` can answer by the well-formedness of the
instruction (R83 to R85, R89, R154, R155). -/

namespace Sys2Proof

theorem wellFormed_iff (i : Instr) : i.wellFormed = true ↔ ∀ a ∈ i.regIds, ∃ r, regOfId a = some r := by
  simp [Instr.wellFormed, validReg_iff]

theorem wellFormed_eq_false_iff (i : Instr) : i.wellFormed = false ↔ ∃ a ∈ i.regIds, regOfId a = none := by
  simp [Instr.wellFormed, validReg]

end Sys2Proof

namespace Sys2Proof.Machine

/-! ### The answers of an instruction whose operands are valid -/

section

variable {dst src left right : RegId} {d l r : Reg}

theorem exec_movlr_some (hd : regOfId dst = some d) (value : Word) (s : State) :
    exec (.movlr dst value) s = .next (complete (writeReg s d value)) := withReg_some s _ hd

theorem exec_movrr_some (hd : regOfId dst = some d) (hr : regOfId src = some r) (s : State) :
    exec (.movrr dst src) s = .next (complete (writeReg s d (readReg s r))) := withRegs2_some s _ hd hr

theorem exec_movmr_some (hd : regOfId dst = some d) (addr : Word) (s : State) :
    exec (.movmr dst addr) s = .next (complete (writeReg s d (memRead16 s.mem addr))) := withReg_some s _ hd

theorem exec_movrm_some (hr : regOfId src = some r) (addr : Word) (s : State) :
    exec (.movrm addr src) s = .next (complete { s with mem := memWrite16 s.mem addr (readReg s r) }) :=
  withReg_some s _ hr

theorem binaryOp_some (hd : regOfId dst = some d) (hl : regOfId left = some l) (hr : regOfId right = some r)
    (f : Word → Word → Word) (s : State) :
    binaryOp f dst left right s = .next (complete (writeReg s d (f (readReg s l) (readReg s r)))) :=
  withRegs3_some s _ hd hl hr

theorem exec_div_zero (hd : regOfId dst = some d) (hl : regOfId left = some l) (hr : regOfId right = some r) {s : State}
    (h0 : readReg s r = 0#16) : exec (.div dst left right) s = .next (raise .divByZero s) :=
  (withRegs3_some s _ hd hl hr).trans (if_pos h0)

theorem exec_div_nonzero (hd : regOfId dst = some d) (hl : regOfId left = some l) (hr : regOfId right = some r)
    {s : State} (h0 : readReg s r ≠ 0#16) : exec (.div dst left right) s =
      .next (complete (writeReg (writeReg s d (quotient (readReg s l) (readReg s r))) .re
        (remainder (readReg s l) (readReg s r)))) :=
  (withRegs3_some s _ hd hl hr).trans (if_neg h0)

theorem exec_cmp_some (hl : regOfId left = some l) (hr : regOfId right = some r) (s : State) :
    exec (.cmp left right) s = .next (complete (writeReg s .cr (compareWords (readReg s l) (readReg s r)))) :=
  withRegs2_some s _ hl hr

end

/-- R84, R155: an ill-formed instruction raises before it reads or writes anything. -/
theorem exec_of_illFormed {i : Instr} (h : i.wellFormed = false) (s : State) :
    exec i s = .next (raise .invalidRegister s) := by
  have hn := (wellFormed_eq_false_iff i).1 h
  cases i with
  | hlt | jmp | jeq | jne | jlt | jle | jgt | jge => cases h
  | movlr | movmr | movrm => exact withReg_none s _ (by simpa [Instr.regIds] using hn)
  | movrr | cmp => exact withRegs2_none s _ (by simpa [Instr.regIds] using hn)
  | add | sub | mult | div => exact withRegs3_none s _ (by simpa [Instr.regIds] using hn)

/-! ### What a completed instruction may change (R89) -/

/-- The registers an instruction may change: its destination, RE under DIV, CR under CMP, IP under a jump (R89). -/
def MayWrite (i : Instr) (r : Reg) : Prop :=
  (∃ dst, i.dst? = some dst ∧ regOfId dst = some r) ∨ (r = .re ∧ i.mnemonic = .div) ∨
    (r = .cr ∧ i.mnemonic = .cmp) ∨ (r = .ip ∧ i.mnemonic ∈ [.jmp, .jeq, .jne, .jlt, .jle, .jgt, .jge])

/-- What an instruction has done to the state before its status: it has changed the registers it may write and, under MOVRM alone,
the two bytes it names (R89). -/
structure InstrEffect (i : Instr) (s u : State) : Prop where
  regs : ∀ r, readReg u r ≠ readReg s r → MayWrite i r
  mem : i.mnemonic ≠ .movrm → u.mem = s.mem
  bytes : ∀ addr src, i = .movrm addr src → BytesSameExcept [addr, addr + 1#16] s u
  halted : u.halted = s.halted
  program : u.program = s.program

theorem InstrEffect.refl (i : Instr) (s : State) : InstrEffect i s s :=
  ⟨fun _ h => absurd rfl h, fun _ => rfl, fun _ _ _ _ _ => rfl, rfl, rfl⟩

theorem InstrEffect.writeReg {i : Instr} {s u : State} (h : InstrEffect i s u) {d : Reg} (hd : MayWrite i d) (v : Word) :
    InstrEffect i s (Machine.writeReg u d v) where
  regs r hr := by
    by_cases hrd : r = d
    · exact hrd ▸ hd
    · exact h.regs r (by rwa [readReg_writeReg_other u v hrd] at hr)
  mem hm := (writeReg_mem u d v).trans (h.mem hm)
  bytes addr src hi a ha := by rw [writeReg_mem, h.bytes addr src hi a ha]
  halted := (writeReg_halted u d v).trans h.halted
  program := (writeReg_program u d v).trans h.program

/-- Writing the destination register is all that MOVLR, MOVRR, MOVMR, ADD, SUB and MULT do. -/
theorem InstrEffect.writeDst {i : Instr} {dst : RegId} {d : Reg} (hi : i.dst? = some dst) (hd : regOfId dst = some d)
    (s : State) (v : Word) : InstrEffect i s (Machine.writeReg s d v) :=
  (InstrEffect.refl i s).writeReg (.inl ⟨dst, hi, hd⟩) v

theorem instrEffect_movrm (addr : Word) (src : RegId) (s : State) (v : Word) :
    InstrEffect (.movrm addr src) s { s with mem := memWrite16 s.mem addr v } where
  regs r hr := absurd (by cases r <;> rfl) hr
  mem hm := absurd rfl hm
  bytes _ _ hi a ha := by
    cases hi
    have hne : a ≠ addr ∧ a ≠ addr + 1#16 := by simpa using ha
    rw [memRead8_memWrite16, if_neg hne.2, if_neg hne.1]
  halted := rfl
  program := rfl

theorem jumpWhen_effect {i : Instr} (hi : i.mnemonic ∈ [.jmp, .jeq, .jne, .jlt, .jle, .jgt, .jge]) (taken : Bool)
    (addr : Word) (s : State) : ∃ u, jumpWhen taken addr s = .next (complete u) ∧ InstrEffect i s u := by
  refine ⟨_, rfl, ?_⟩
  cases taken
  · exact .refl i s
  · exact (InstrEffect.refl i s).writeReg (.inr (.inr (.inr ⟨rfl, hi⟩))) addr

/-- Everything a well-formed instruction can answer: HLT and a DIV by zero raise, and every other one completes. -/
theorem exec_of_wellFormed {i : Instr} (h : i.wellFormed = true) (s : State) :
    (i = .hlt ∧ exec i s = .next (raise .halt s)) ∨
      (∃ dst left right r, i = .div dst left right ∧ regOfId right = some r ∧ readReg s r = 0#16 ∧
        exec i s = .next (raise .divByZero s)) ∨
      ∃ u, exec i s = .next (complete u) ∧ InstrEffect i s u := by
  have hv := (wellFormed_iff i).1 h
  cases i with
  | hlt => exact .inl ⟨rfl, rfl⟩
  | movlr dst value =>
    obtain ⟨d, hd⟩ := by simpa [Instr.regIds] using hv
    exact .inr (.inr ⟨_, exec_movlr_some hd value s, .writeDst rfl hd s _⟩)
  | movrr dst src =>
    obtain ⟨⟨d, hd⟩, r, hr⟩ := by simpa [Instr.regIds] using hv
    exact .inr (.inr ⟨_, exec_movrr_some hd hr s, .writeDst rfl hd s _⟩)
  | movmr dst addr =>
    obtain ⟨d, hd⟩ := by simpa [Instr.regIds] using hv
    exact .inr (.inr ⟨_, exec_movmr_some hd addr s, .writeDst rfl hd s _⟩)
  | movrm addr src =>
    obtain ⟨r, hr⟩ := by simpa [Instr.regIds] using hv
    exact .inr (.inr ⟨_, exec_movrm_some hr addr s, instrEffect_movrm addr src s _⟩)
  | add dst left right | sub dst left right | mult dst left right =>
    obtain ⟨⟨d, hd⟩, ⟨l, hl⟩, r, hr⟩ := by simpa [Instr.regIds] using hv
    exact .inr (.inr ⟨_, binaryOp_some hd hl hr _ s, .writeDst rfl hd s _⟩)
  | div dst left right =>
    obtain ⟨⟨d, hd⟩, ⟨l, hl⟩, r, hr⟩ := by simpa [Instr.regIds] using hv
    by_cases h0 : readReg s r = 0#16
    · exact .inr (.inl ⟨dst, left, right, r, rfl, hr, h0, exec_div_zero hd hl hr h0⟩)
    · exact .inr (.inr ⟨_, exec_div_nonzero hd hl hr h0,
        (InstrEffect.writeDst rfl hd s _).writeReg (.inr (.inl ⟨rfl, rfl⟩)) _⟩)
  | cmp left right =>
    obtain ⟨⟨l, hl⟩, r, hr⟩ := by simpa [Instr.regIds] using hv
    exact .inr (.inr ⟨_, exec_cmp_some hl hr s, (InstrEffect.refl _ s).writeReg (.inr (.inr (.inl ⟨rfl, rfl⟩))) _⟩)
  | jmp addr | jeq addr | jne addr | jlt addr | jle addr | jgt addr | jge addr =>
    exact .inr (.inr (jumpWhen_effect (by simp [Instr.mnemonic]) _ addr s))

/-! ### The statements about every instruction -/

theorem stopped_raise (c : Cause) (s : State) : Stopped c s.ip s (raise c s) := by
  simpa using stopped_raise_advancePc c s 0

/-- Settles O36: an ill-formed instruction raises this cause, and a well-formed one Halt, DivByZero or none. -/
theorem invalidRegisterStops : Obligations.InvalidRegisterStops := by
  refine fun i s => ⟨fun h => ⟨_, exec_of_illFormed h s, stopped_raise .invalidRegister s⟩, fun h t ht => ?_⟩
  rcases exec_of_wellFormed h s with ⟨_, e⟩ | ⟨_, _, _, _, _, _, _, e⟩ | ⟨u, e, _⟩ <;> rw [e] at ht <;> cases ht
  · rw [raise_status]; decide
  · rw [raise_status]; decide
  · rw [complete_status]; decide

/-- Settles O39: with HLT and the zero divisor excluded, completing is the outcome that is left. -/
theorem wellFormedInstructionsComplete : Obligations.WellFormedInstructionsComplete := by
  intro i s h hhlt hdiv
  rcases exec_of_wellFormed h s with ⟨hi, _⟩ | ⟨dst, left, right, r, hi, hr, h0, _⟩ | ⟨u, e, hu⟩
  · exact absurd hi hhlt
  · exact absurd h0 (hdiv dst left right r hi hr)
  · exact ⟨complete u, e, rfl, hu.halted⟩

/-- Any instruction raises a cause in the state it was given, or it is well formed and completes. -/
theorem exec_raises_or_completes (i : Instr) (s : State) :
    (∃ c, exec i s = .next (raise c s)) ∨
      (i.wellFormed = true ∧ ∃ u, exec i s = .next (complete u) ∧ InstrEffect i s u) := by
  cases h : i.wellFormed with
  | false => exact .inl ⟨_, exec_of_illFormed h s⟩
  | true =>
    rcases exec_of_wellFormed h s with ⟨_, e⟩ | ⟨_, _, _, _, _, _, _, e⟩ | hu
    · exact .inl ⟨_, e⟩
    · exact .inl ⟨_, e⟩
    · exact .inr ⟨rfl, hu⟩

/-- R89: the instruction fetch moves `pc` and does nothing else. -/
theorem fetchInstr_moves_pc (s : State) : fetchInstr s = .unbound ∨
    (∃ c n, fetchInstr s = .raised c (advancePc s n)) ∨ ∃ i n, fetchInstr s = .instr i (advancePc s n) := by
  rcases fetchInstr_mem_cases s s.mem with e | ⟨c, n, e, _⟩ | ⟨i, n, e, _⟩
  · exact .inl e
  · exact .inr (.inl ⟨c, n, e⟩)
  · exact .inr (.inr ⟨i, n, e⟩)

/-- Settles O28: the fetch moves `pc`, and an instruction raises in the state it was given or has its `InstrEffect`. -/
theorem stepFrame : Obligations.StepFrame := by
  refine ⟨fun s t i h => ?_, fun s t c h => ?_, fun i s t h => ?_⟩
  · rcases fetchInstr_moves_pc s with e | ⟨_, _, e⟩ | ⟨_, _, e⟩ <;> rw [e] at h <;> cases h
    rfl
  · rcases fetchInstr_moves_pc s with e | ⟨_, _, e⟩ | ⟨_, _, e⟩ <;> rw [e] at h <;> cases h
    rfl
  · rcases exec_raises_or_completes i s with ⟨c, e⟩ | ⟨hw, u, e, hu⟩ <;> rw [e] at h <;> cases h
    · exact ⟨fun r hr => absurd (readReg_raise c s r) hr, fun _ => rfl,
        fun addr src _ => ⟨bytesSameExcept_of_mem_eq rfl _, fun _ => rfl⟩, rfl, fun _ => ⟨c, rfl⟩⟩
    · refine ⟨fun r hr => hu.regs r (by rwa [readReg_complete] at hr), hu.mem,
        fun addr src hi => ⟨hu.bytes addr src hi, fun hn => ?_⟩, hu.program, fun hh => absurd hu.halted hh⟩
      subst hi
      obtain ⟨r, hr⟩ := (wellFormed_iff (.movrm addr src)).1 hw src (by simp [Instr.regIds])
      rw [hn] at hr
      cases hr

end Sys2Proof.Machine
end

section
/-! SUPPORT. The step of each instruction with valid operands that lies at `pc`: its sources are read with `pc` past it, so IP as a
source is the address of the next instruction (R83, R91). -/

namespace Sys2Proof.Machine

section

variable {s : State} {p : List Byte} {dst src left right : RegId} {d l r : Reg} (h : s.halted = false)
  (hp : s.program = some p)

include h hp

theorem step_movrr (hd : regOfId dst = some d) (hr : regOfId src = some r)
    (hc : CodeAt p s.ip (encode (.movrr dst src))) :
    ∃ t, step s = .next t ∧ readReg t d = readReg (advancePc s 3) r ∧ t.status = .continues :=
  ⟨_, (step_of_code h hp hc).trans (exec_movrr_some hd hr _), by simp [encode, encodeWith, operandsOf], rfl⟩

theorem step_movrm (hr : regOfId src = some r) {addr : Word} (hc : CodeAt p s.ip (encode (.movrm addr src))) :
    ∃ t, step s = .next t ∧ memRead16 t.mem addr = readReg (advancePc s 4) r ∧ t.ip = s.ip + 4#16 :=
  ⟨_, (step_of_code h hp hc).trans (exec_movrm_some hr addr _), memRead16_memWrite16 _ addr _, rfl⟩

theorem step_cmp (hl : regOfId left = some l) (hr : regOfId right = some r)
    (hc : CodeAt p s.ip (encode (.cmp left right))) :
    ∃ t, step s = .next t ∧ t.ip = s.ip + 3#16 ∧
      t.cr.toNat = if readReg (advancePc s 3) l = readReg (advancePc s 3) r then 0
        else if (readReg (advancePc s 3) l).toNat < (readReg (advancePc s 3) r).toNat then 1 else 2 := by
  refine ⟨_, (step_of_code h hp hc).trans (exec_cmp_some hl hr _), rfl, ?_⟩
  simp only [← BitVec.toNat_inj]
  exact toNat_compareWords _ _

/-- The step of an instruction of four bytes that computes `f` of its two sources: ADD, SUB, MULT. -/
theorem step_binaryOp {i : Instr} {f : Word → Word → Word} (hi : ∀ s, exec i s = binaryOp f dst left right s)
    (hn : (encode i).length = 4) (hd : regOfId dst = some d) (hl : regOfId left = some l)
    (hr : regOfId right = some r) (hc : CodeAt p s.ip (encode i)) :
    ∃ t, step s = .next t ∧ readReg t d = f (readReg (advancePc s 4) l) (readReg (advancePc s 4) r) ∧
      t.status = .continues := by
  have e := step_of_code h hp hc
  rw [hn, hi, binaryOp_some hd hl hr] at e
  exact ⟨_, e, by rw [readReg_complete, readReg_writeReg_same], rfl⟩

theorem step_div (hd : regOfId dst = some d) (hl : regOfId left = some l) (hr : regOfId right = some r)
    (hc : CodeAt p s.ip (encode (.div dst left right))) :
    ∃ t, step s = .next t ∧
      if readReg (advancePc s 4) r = 0#16 then Stopped .divByZero (s.ip + 4#16) s t
      else (d ≠ .re →
          (readReg t d).toNat = (readReg (advancePc s 4) l).toNat / (readReg (advancePc s 4) r).toNat) ∧
        t.re.toNat = (readReg (advancePc s 4) l).toNat % (readReg (advancePc s 4) r).toNat ∧
        t.status = .continues := by
  have e : step s = exec (.div dst left right) (advancePc s 4) := step_of_code h hp hc
  by_cases h0 : readReg (advancePc s 4) r = 0#16
  · rw [exec_div_zero hd hl hr h0] at e
    exact ⟨_, e, (if_pos h0).mpr (stopped_raise_advancePc .divByZero s 4)⟩
  · rw [exec_div_nonzero hd hl hr h0] at e
    refine ⟨_, e, (if_neg h0).mpr ⟨fun hre => ?_, BitVec.toNat_umod, rfl⟩⟩
    rw [readReg_complete, readReg_writeReg_other _ _ hre, readReg_writeReg_same]
    exact BitVec.toNat_udiv

end

/-- Settles O29: IP is a register as any other, which with `pc` past the instruction reads the next address. -/
theorem ipAsSourceIsTheNextAddress : Obligations.IpAsSourceIsTheNextAddress := by
  intro s p h hp
  have hip := regOfId_regIdMap .ip
  exact ⟨fun _ _ hd hc => step_movrr h hp hd hip hc,
    fun _ hc => step_movrm h hp hip hc,
    fun _ _ hr => ⟨step_cmp h hp hip hr, step_cmp h hp hr hip⟩,
    fun _ _ _ _ hd hr =>
      ⟨step_binaryOp h hp (fun _ => rfl) rfl hd hip hr, step_binaryOp h hp (fun _ => rfl) rfl hd hr hip,
        step_binaryOp h hp (fun _ => rfl) rfl hd hip hr, step_binaryOp h hp (fun _ => rfl) rfl hd hr hip,
        step_binaryOp h hp (fun _ => rfl) rfl hd hip hr, step_binaryOp h hp (fun _ => rfl) rfl hd hr hip⟩,
    fun _ _ _ _ hd hr => ⟨step_div h hp hd hip hr, step_div h hp hd hr hip⟩⟩

end Sys2Proof.Machine
end

section
/-! SUPPORT. The loop of R82 against the machine run step by step: it returns the first non-zero status. -/

namespace Sys2Proof.Machine

/-- The steps from a state return CONTINUE `k` times, and the next one returns another status, with the state after it (R82). -/
def FirstStop (k : Nat) (s : State) (st : Status) (t : State) : Prop :=
  ∃ u : State, Sys2Proof.core.run k s = .next u ∧
    (∀ j, j < k → ∃ v : State, Sys2Proof.core.run (j + 1) s = .next v ∧ v.status = .continues) ∧
    step u = .next t ∧ t.status = st ∧ st ≠ .continues

theorem firstStop_zero {s t : State} {st : Status} :
    FirstStop 0 s st t ↔ step s = .next t ∧ t.status = st ∧ st ≠ .continues := by
  refine ⟨?_, fun hst => ⟨s, core_run_zero s, fun _ hj => absurd hj (Nat.not_lt_zero _), hst⟩⟩
  rintro ⟨u, hu, _, hst⟩
  cases hu
  exact hst

theorem firstStop_succ {s v t : State} {st : Status} (h : step s = .next v) {k : Nat} :
    FirstStop (k + 1) s st t ↔ v.status = .continues ∧ FirstStop k v st t := by
  constructor
  · rintro ⟨u, hu, hc, hst⟩
    obtain ⟨w, hw, hws⟩ := hc 0 (Nat.succ_pos k)
    rw [core_run_next h, core_run_zero] at hw
    cases hw
    exact ⟨hws, u, (core_run_next h k).symm.trans hu,
      fun j hj => core_run_next h (j + 1) ▸ hc (j + 1) (Nat.succ_lt_succ hj), hst⟩
  · rintro ⟨hv, u, hu, hc, hst⟩
    refine ⟨u, (core_run_next h k).trans hu, fun j hj => ?_, hst⟩
    rw [core_run_next h]
    cases j with
    | zero => exact ⟨v, core_run_zero v, hv⟩
    | succ j => exact hc j (Nat.lt_of_succ_lt_succ hj)

/-- Where a run stops with a status, its first step answers a state. -/
theorem FirstStop.step_next {k : Nat} {s t : State} {st : Status} (hf : FirstStop k s st t) : ∃ v, step s = .next v := by
  cases k with
  | zero => exact ⟨t, (firstStop_zero.1 hf).1⟩
  | succ k =>
    obtain ⟨u, hu, _⟩ := hf
    cases h : step s with
    | next v => exact ⟨v, rfl⟩
    | fault r => rw [core_run_fault h] at hu; cases hu
    | refused r => rw [core_run_refused h] at hu; cases hu

theorem runLoop_eq_none_of_stuck {s : State} (h : ¬ ∃ v, step s = .next v) (fuel : Nat) : runLoop fuel s = none := by
  cases fuel with
  | zero => rfl
  | succ fuel =>
    cases e : step s with
    | next v => exact absurd ⟨v, e⟩ h
    | fault r => simp [runLoop, loopOf, e]
    | refused r => simp [runLoop, loopOf, e]

theorem runLoop_eq_some_iff (fuel : Nat) (s : State) (st : Status) (t : State) :
    runLoop fuel s = some (st, t) ↔ ∃ k, k < fuel ∧ FirstStop k s st t := by
  induction fuel generalizing s with
  | zero => simp [runLoop, loopOf]
  | succ fuel ih =>
    by_cases h : ∃ v, step s = .next v
    · obtain ⟨v, h⟩ := h
      rw [Nat.exists_lt_succ_left, firstStop_zero, runLoop_next h, h]
      simp only [firstStop_succ h]
      by_cases hv : v.status = .continues
      · rw [if_pos hv, ih]
        constructor
        · rintro ⟨k, hk, hf⟩
          exact .inr ⟨k, hk, hv, hf⟩
        · rintro (⟨⟨⟩, hst, hne⟩ | ⟨k, hk, _, hf⟩)
          · exact absurd (hst.symm.trans hv) hne
          · exact ⟨k, hk, hf⟩
      · rw [if_neg hv]
        constructor
        · rintro ⟨⟩
          exact .inl ⟨rfl, rfl, hv⟩
        · rintro (⟨⟨⟩, rfl, _⟩ | ⟨_, _, hc, _⟩)
          · rfl
          · exact absurd hc hv
    · rw [runLoop_eq_none_of_stuck h]
      exact ⟨nofun, fun ⟨_, _, hf⟩ => absurd hf.step_next h⟩

/-- Settles O30: a run is its run start and its loop, and the loop by induction on the fuel (`runLoop_eq_some_iff`). -/
theorem runReturnsTheFirstNonZeroStatus : Obligations.RunReturnsTheFirstNonZeroStatus :=
  ⟨fun _ s => ⟨fun hb => ⟨_, runStart_next hb s, run_of_start (runStart_next hb s)⟩,
      fun hb => run_of_refused_start (runStart_refused hb s)⟩,
    fun fuel s st t => (runLoop_eq_some_iff fuel s st t).trans (exists_congr fun _ => exists_and_left.symm)⟩

end Sys2Proof.Machine
end

section
/-! SUPPORT. The truncation rule that every instruction shares (R156, D6, D7), and HLT (R100). -/

namespace Sys2Proof.Machine

/-- R156, D6, D7: an instruction cut off by the end of the buffer stops with TruncatedProgram, `pc` at the missing byte. -/
theorem cutShort (i : Instr) : CutShort i := fun s _ k h hp hk hc hn =>
  ⟨raise .truncatedProgram (advancePc s k),
    step_raised h (fetchInstrWith_cutShort opcodeMap_injective hp hk hc hn),
    stopped_raise_advancePc .truncatedProgram s k⟩

theorem exec_hlt (s : State) : exec .hlt s = .next (raise .halt s) := rfl

@[simp] theorem haltedStep_raise_halt (s : State) : haltedStep (raise .halt s) = raise .halt s := rfl

/-- R88 after R100: a halted machine that holds the status HALT is a fixed point of the step. -/
theorem step_raise_halt (s : State) : step (raise .halt s) = .next (raise .halt s) := by
  rw [step_halted (raise_halted .halt s), haltedStep_raise_halt]

/-- Settles O41: the status a halted step returns is the one HLT raises, so the step after HLT gives the same state. -/
theorem hltHalts : Obligations.HltHalts :=
  ⟨fun _ => rfl, cutShort .hlt,
    fun s => ⟨raise .halt s, exec_hlt s, stopped_raise .halt s, step_raise_halt s⟩,
    fun _ _ h hp hc => step_of_code h hp hc⟩

end Sys2Proof.Machine
end

section
/-! SUPPORT. What the instructions share: the frame of one register written, and the invalid operand (R84, R89, R155). -/

namespace Sys2Proof.Machine

/-- An instruction that completes after writing one register leaves everything else unchanged (R89). -/
theorem frame_writeReg (s : State) (d : Reg) (v : Word) : Frame [d] [] s (complete (writeReg s d v)) where
  regs r hr := (readReg_complete _ r).trans (regsSameExcept_writeReg s d v r hr)
  bytes := bytesSameExcept_of_mem_eq (writeReg_mem s d v) []
  halted := writeReg_halted s d v
  program := writeReg_program s d v
  status := complete_status _

/-- One invalid register operand makes the instruction ill formed, which is InvalidRegister (R155). -/
theorem stops_of_invalid_operand {i : Instr} {a : RegId} (ha : a ∈ i.regIds) (h : regOfId a = none) (s : State) :
    ∃ t, exec i s = .next t ∧ Stopped .invalidRegister s.ip s t :=
  (invalidRegisterStops i s).1 ((wellFormed_eq_false_iff i).2 ⟨a, ha, h⟩)

end Sys2Proof.Machine
end

section
/-! SUPPORT. The data movement instructions (R110 to R113). -/

namespace Sys2Proof.Machine

/-- R113: an instruction with the effect of MOVRM completes with no register and only its two bytes changed. -/
theorem InstrEffect.frame_movrm {addr : Word} {src : RegId} {s u : State} (h : InstrEffect (.movrm addr src) s u) :
    Frame [] [addr, addr + 1#16] s (complete u) where
  regs r _ := by
    have hw : ¬ MayWrite (.movrm addr src) r := by simp [MayWrite, Instr.dst?, Instr.mnemonic]
    rw [readReg_complete]
    exact not_not.1 (mt (h.regs r) hw)
  bytes := h.bytes addr src rfl
  halted := h.halted
  program := h.program
  status := complete_status u

/-- Settles O42: the literal is written to `dst`, or `dst` is the invalid operand. -/
theorem movlrLoadsTheLiteral : Obligations.MovlrLoadsTheLiteral := fun dst value =>
  ⟨fun _ => rfl, cutShort (.movlr dst value), fun s =>
    ⟨fun d hd => ⟨_, exec_movlr_some hd value s, by rw [readReg_complete, readReg_writeReg_same], frame_writeReg s d _⟩,
      fun h => stops_of_invalid_operand (by simp [Instr.regIds]) h s⟩⟩

/-- Settles O43: `src` is read before `dst` is written, or one of them is the invalid operand. -/
theorem movrrCopiesTheRegister : Obligations.MovrrCopiesTheRegister := fun dst src =>
  ⟨fun _ => rfl, cutShort (.movrr dst src), fun s =>
    ⟨fun d _ hd hr =>
        ⟨_, exec_movrr_some hd hr s, by rw [readReg_complete, readReg_writeReg_same], frame_writeReg s d _⟩,
      fun h => h.elim (fun hd => stops_of_invalid_operand (by simp [Instr.regIds]) hd s)
        (fun hr => stops_of_invalid_operand (by simp [Instr.regIds]) hr s)⟩⟩

/-- Settles O44: the big-endian word at `addr` is written to `dst`, or `dst` is the invalid operand. -/
theorem movmrLoadsTheWord : Obligations.MovmrLoadsTheWord := fun dst addr =>
  ⟨fun _ => rfl, cutShort (.movmr dst addr), fun s =>
    ⟨fun d hd => ⟨_, exec_movmr_some hd addr s,
        by rw [readReg_complete, readReg_writeReg_same, (wideReadsAreBigEndian s.mem addr).1], frame_writeReg s d _⟩,
      fun h => stops_of_invalid_operand (by simp [Instr.regIds]) h s⟩⟩

/-- Settles O45: the two bytes of `src` are stored, the low one last, or `src` is the invalid operand. -/
theorem movrmStoresTheRegister : Obligations.MovrmStoresTheRegister := fun addr src =>
  ⟨fun _ => rfl, cutShort (.movrm addr src), fun s =>
    ⟨fun r hr => ⟨_, exec_movrm_some hr addr s,
        by rw [complete_mem, toNat_memRead8_memWrite16, if_pos rfl],
        by rw [complete_mem, memRead8_memWrite16, if_pos rfl, toNat_lowByte],
        (instrEffect_movrm addr src s _).frame_movrm⟩,
      fun h => stops_of_invalid_operand (by simp [Instr.regIds]) h s⟩⟩

end Sys2Proof.Machine
end

section
/-! SUPPORT. The arithmetic instructions (R120 to R123): the values of their operations as numbers, and the shape that ADD, SUB and
MULT share. -/

namespace Sys2Proof.Machine

/-! ### The operations as numbers (R124: unsigned, modulo 65,536) -/

theorem toNat_addWords (a b : Word) : (addWords a b).toNat = (a.toNat + b.toNat) % 65536 := BitVec.toNat_add a b

theorem toNat_subWords (a b : Word) : ((subWords a b).toNat : Int) = (a.toNat - b.toNat : Int) % 65536 := by
  have h : (subWords a b).toNat = (65536 - b.toNat + a.toNat) % 65536 := BitVec.toNat_sub a b
  have hb : b.toNat < 65536 := b.isLt
  omega

theorem toNat_multWords (a b : Word) : (multWords a b).toNat = a.toNat * b.toNat % 65536 := BitVec.toNat_mul a b

theorem toNat_quotient (a b : Word) : (quotient a b).toNat = a.toNat / b.toNat := BitVec.toNat_udiv

theorem toNat_remainder (a b : Word) : (remainder a b).toNat = a.toNat % b.toNat := BitVec.toNat_umod

/-! ### Three register operands -/

section

variable {dst left right : RegId} {d l r : Reg}

/-- R84, R155 for the format RRR: whichever operand is invalid, the instruction is ill formed. -/
theorem stops_of_invalid_operand_rrr {i : Instr} (hi : i.regIds = [dst, left, right])
    (h : regOfId dst = none ∨ regOfId left = none ∨ regOfId right = none) (s : State) :
    ∃ t, exec i s = .next t ∧ Stopped .invalidRegister s.ip s t := by
  rcases h with h | h | h <;> exact stops_of_invalid_operand (by simp [hi]) h s

/-- R120 to R122: with valid operands, `dst` gets the operation's value of the old sources and nothing else changes. -/
theorem binaryOp_writes (hd : regOfId dst = some d) (hl : regOfId left = some l) (hr : regOfId right = some r)
    (f : Word → Word → Word) (s : State) :
    ∃ t, binaryOp f dst left right s = .next t ∧ readReg t d = f (readReg s l) (readReg s r) ∧ Frame [d] [] s t :=
  ⟨_, binaryOp_some hd hl hr f s, by rw [readReg_complete, readReg_writeReg_same], frame_writeReg s d _⟩

end

/-- Settles O46: the shape of `binaryOp`, with the sum as a number. -/
theorem addWraps : Obligations.AddWraps := fun dst left right =>
  ⟨fun _ => rfl, cutShort (.add dst left right), fun s =>
    ⟨fun d l r hd hl hr => by
        obtain ⟨t, e, hv, hf⟩ := binaryOp_writes hd hl hr addWords s
        exact ⟨t, e, by rw [hv, toNat_addWords], hf⟩,
      fun h => stops_of_invalid_operand_rrr rfl h s⟩⟩

/-- Settles O47: the shape of `binaryOp`, with the difference as an integer. -/
theorem subWraps : Obligations.SubWraps := fun dst left right =>
  ⟨fun _ => rfl, cutShort (.sub dst left right), fun s =>
    ⟨fun d l r hd hl hr => by
        obtain ⟨t, e, hv, hf⟩ := binaryOp_writes hd hl hr subWords s
        exact ⟨t, e, by rw [hv, toNat_subWords], hf⟩,
      fun h => stops_of_invalid_operand_rrr rfl h s⟩⟩

/-- Settles O48: the shape of `binaryOp`, with the low half of the product as a number. -/
theorem multKeepsTheLowHalf : Obligations.MultKeepsTheLowHalf := fun dst left right =>
  ⟨fun _ => rfl, cutShort (.mult dst left right), fun s =>
    ⟨fun d l r hd hl hr => by
        obtain ⟨t, e, hv, hf⟩ := binaryOp_writes hd hl hr multWords s
        exact ⟨t, e, by rw [hv, toNat_multWords], hf⟩,
      fun h => stops_of_invalid_operand_rrr rfl h s⟩⟩

/-! ### DIV, which writes two registers -/

/-- An instruction that completes after writing two registers leaves everything else unchanged (R89). -/
theorem frame_writeReg_writeReg (s : State) (d q : Reg) (v w : Word) :
    Frame [d, q] [] s (complete (writeReg (writeReg s d v) q w)) where
  regs r hr := by
    have hne : r ≠ d ∧ r ≠ q := by simpa using hr
    rw [readReg_complete, readReg_writeReg_other _ _ hne.2, readReg_writeReg_other _ _ hne.1]
  bytes := bytesSameExcept_of_mem_eq ((writeReg_mem _ q w).trans (writeReg_mem s d v)) []
  halted := (writeReg_halted _ q w).trans (writeReg_halted s d v)
  program := (writeReg_program _ q w).trans (writeReg_program s d v)
  status := complete_status _

/-- Settles O49: `dst`, then RE, so that RE holds the remainder even where it is `dst`; a zero divisor raises first. -/
theorem divGivesQuotientAndRemainder : Obligations.DivGivesQuotientAndRemainder := fun dst left right =>
  ⟨fun _ => rfl, cutShort (.div dst left right), fun s =>
    ⟨fun d _ _ hd hl hr h0 => ⟨_, exec_div_nonzero hd hl hr h0,
        fun hre => by rw [readReg_complete, readReg_writeReg_other _ _ hre, readReg_writeReg_same, toNat_quotient],
        toNat_remainder _ _, frame_writeReg_writeReg s d .re _ _⟩,
      fun _ _ _ hd hl hr h0 => ⟨_, exec_div_zero hd hl hr h0, stopped_raise .divByZero s⟩,
      fun h => stops_of_invalid_operand_rrr rfl h s⟩⟩

end Sys2Proof.Machine
end

section
/-! SUPPORT. The comparison instruction (R130). -/

namespace Sys2Proof.Machine

/-- Settles O50: CR gets the old sources' `compareWords` as a number and nothing else changes, or an operand is invalid. -/
theorem cmpWritesTheThreeWayResult : Obligations.CmpWritesTheThreeWayResult := fun left right =>
  ⟨fun _ => rfl, cutShort (.cmp left right), fun s =>
    ⟨fun _ _ hl hr => ⟨_, exec_cmp_some hl hr s, toNat_compareWords _ _, frame_writeReg s .cr _⟩,
      fun h => h.elim (fun hl => stops_of_invalid_operand (by simp [Instr.regIds]) hl s)
        (fun hr => stops_of_invalid_operand (by simp [Instr.regIds]) hr s)⟩⟩

end Sys2Proof.Machine
end

section
/-! SUPPORT. The jump instructions (R140 to R148). -/

namespace Sys2Proof.Machine

/-- What the seven jumps share (R147): where the condition holds `pc` becomes the target, else it stays, and nothing else changes. -/
theorem jumpWhen_jumps {taken : Bool} {P : Prop} [Decidable P] (h : taken = true ↔ P) (addr : Word) (s : State) :
    ∃ t, jumpWhen taken addr s = .next t ∧ t.ip = (if P then addr else s.ip) ∧ Frame [.ip] [] s t := by
  refine ⟨_, rfl, ?_⟩
  cases taken with
  | true => exact ⟨(if_pos (h.1 rfl)).symm, frame_writeReg s .ip addr⟩
  | false => exact ⟨(if_neg (fun hP => Bool.noConfusion (h.2 hP))).symm, frame_writeReg s .ip s.ip⟩

/-- Settles O51: JMP is the jump whose condition always holds. -/
theorem jmpJumps : Obligations.JmpJumps := fun addr =>
  ⟨fun _ => rfl, cutShort (.jmp addr), jumpWhen_jumps (P := True) (iff_of_true rfl trivial) addr⟩

/-- Settles O52: the jump under `condEq`. -/
theorem jeqJumpsWhenCrIsZero : Obligations.JeqJumpsWhenCrIsZero := fun addr =>
  ⟨fun _ => rfl, cutShort (.jeq addr), fun s => jumpWhen_jumps (condEq_iff s.cr) addr s⟩

/-- Settles O53: the jump under `condNe`. -/
theorem jneJumpsWhenCrIsNotZero : Obligations.JneJumpsWhenCrIsNotZero := fun addr =>
  ⟨fun _ => rfl, cutShort (.jne addr), fun s => jumpWhen_jumps (condNe_iff s.cr) addr s⟩

/-- Settles O54: the jump under `condLt`. -/
theorem jltJumpsWhenCrIsOne : Obligations.JltJumpsWhenCrIsOne := fun addr =>
  ⟨fun _ => rfl, cutShort (.jlt addr), fun s => jumpWhen_jumps (condLt_iff s.cr) addr s⟩

/-- Settles O55: the jump under `condLe`. -/
theorem jleJumpsWhenCrIsZeroOrOne : Obligations.JleJumpsWhenCrIsZeroOrOne := fun addr =>
  ⟨fun _ => rfl, cutShort (.jle addr), fun s => jumpWhen_jumps (condLe_iff s.cr) addr s⟩

/-- Settles O56: the jump under `condGt`. -/
theorem jgtJumpsWhenCrIsTwo : Obligations.JgtJumpsWhenCrIsTwo := fun addr =>
  ⟨fun _ => rfl, cutShort (.jgt addr), fun s => jumpWhen_jumps (condGt_iff s.cr) addr s⟩

/-- Settles O57: the jump under `condGe`. -/
theorem jgeJumpsWhenCrIsZeroOrTwo : Obligations.JgeJumpsWhenCrIsZeroOrTwo := fun addr =>
  ⟨fun _ => rfl, cutShort (.jge addr), fun s => jumpWhen_jumps (condGe_iff s.cr) addr s⟩

/-- R51, R156: a running machine whose `pc` is at or beyond `L` stops with TruncatedProgram, `pc` where it is. -/
theorem step_pc_beyond {s : State} {p : List Byte} (h : s.halted = false) (hp : s.program = some p)
    (hl : p.length ≤ s.ip.toNat) : step s = .next (raise .truncatedProgram s) :=
  step_raised h (fetchInstr_no_opcode hp (List.getElem?_eq_none hl))

/-- Settles O40: the JMP completes whatever its target is (`jmpJumps`), and the opcode byte of the next step is missing. -/
theorem jumpTargetIsNotChecked : Obligations.JumpTargetIsNotChecked := by
  intro s p addr h hp hc hl
  obtain ⟨t, ht, rfl, hf⟩ := (jmpJumps addr).2.2 (advancePc s (encode (.jmp addr)).length)
  exact ⟨t, raise .truncatedProgram t, (step_of_code h hp hc).trans ht, rfl, hf.status,
    step_pc_beyond (hf.halted.trans h) (hf.program.trans hp) hl, stopped_raise .truncatedProgram t⟩

end Sys2Proof.Machine
end

section
/-! SUPPORT. The status numbers (R151), `raise` (R150), and a halted machine along any number of steps (R159). -/

namespace Sys2Proof.Machine

/-- The statuses in the order of R151's table, CONTINUE first. -/
def Status.inTableOrder : List Status :=
  [.continues, .stop .halt, .stop .unknownOpcode, .stop .divByZero, .stop .invalidRegister, .stop .truncatedProgram]

/-- The default number of a status is its position in the table. -/
theorem inTableOrder_statusMap (st : Status) : Status.inTableOrder[statusMap st]? = some st := by
  cases st with
  | continues => rfl
  | stop c => cases c <;> rfl

theorem statusMap_injective : Function.Injective statusMap := fun st st' h =>
  Option.some.inj <| calc
    some st = Status.inTableOrder[statusMap st]? := (inTableOrder_statusMap st).symm
    _ = Status.inTableOrder[statusMap st']? := by rw [h]
    _ = some st' := inTableOrder_statusMap st'

/-- Settles O32: the numbers are the positions in the table, so no two are equal. -/
theorem statusNumbers : Obligations.StatusNumbers :=
  ⟨rfl, fun _ => statusMap_injective.eq_iff' rfl, fun _ _ h => statusMap_injective h⟩

/-- Settles O31: `raise` writes the halted flag and the status. -/
theorem raiseDoesThreeThings : Obligations.RaiseDoesThreeThings := stopped_raise

@[simp] theorem haltedStep_haltedStep (s : State) : haltedStep (haltedStep s) = haltedStep s := rfl

/-- Any number of steps of a halted machine is one of them. -/
theorem core_run_halted (k : Nat) {s : State} (h : s.halted = true) :
    Sys2Proof.core.run (k + 1) s = .next (haltedStep s) := by
  induction k generalizing s with
  | zero => rw [core_run_next (step_halted h), core_run_zero]
  | succ k ih => rw [core_run_next (step_halted h), ih (s := haltedStep s) h, haltedStep_haltedStep]

/-- Settles O23: the steps by induction on their number (`core_run_halted`), and the way out by the run start's own rule. -/
theorem haltedIsTerminal : Obligations.HaltedIsTerminal := fun s h =>
  ⟨fun k => ⟨haltedStep s, core_run_halted k h, stopped_haltedStep h⟩,
    fun _ hb => ⟨_, runStart_next hb s, rfl, rfl⟩⟩

end Sys2Proof.Machine
end

section
/-! SUPPORT. The reasons for which an instruction and a step of a running machine stop, each said once (R152 to R156): a stop has
one of them, and its cause and the number of bytes fetched come with it. -/

namespace Sys2Proof.Machine

/-! ### Instructions -/

/-- The causes an instruction executed in a state can raise, each with its condition (R152, R154, R155). -/
inductive ExecRaises (s : State) : Instr → Cause → Prop where
  | illFormed {i : Instr} (hw : i.wellFormed = false) : ExecRaises s i .invalidRegister
  | hlt : ExecRaises s .hlt .halt
  | divByZero {dst left right : RegId} {r : Reg} (hw : (Instr.div dst left right).wellFormed = true)
      (hr : regOfId right = some r) (h0 : readReg s r = 0#16) : ExecRaises s (.div dst left right) .divByZero

/-- An instruction raises one of its causes in the state it was given, or it completes. -/
theorem execRaises_or_completes (i : Instr) (s : State) :
    (∃ c, ExecRaises s i c ∧ exec i s = .next (raise c s)) ∨ ∃ u, exec i s = .next (complete u) := by
  cases hw : i.wellFormed with
  | false => exact .inl ⟨_, .illFormed hw, exec_of_illFormed hw s⟩
  | true =>
    rcases exec_of_wellFormed hw s with ⟨rfl, e⟩ | ⟨_, _, _, _, rfl, hr, h0, e⟩ | ⟨u, e, _⟩
    · exact .inl ⟨_, .hlt, e⟩
    · exact .inl ⟨_, .divByZero hw hr h0, e⟩
    · exact .inr ⟨u, e⟩

/-- An instruction that stops has a reason to, and has changed nothing else. -/
theorem execRaises_of_stop {i : Instr} {s t : State} {c : Cause} (h : exec i s = .next t) (hst : t.status = .stop c) :
    ExecRaises s i c ∧ t = raise c s := by
  rcases execRaises_or_completes i s with ⟨c', hc, e⟩ | ⟨u, e⟩ <;> rw [e] at h <;> cases h <;> cases hst
  exact ⟨hc, rfl⟩

/-- A DIV with valid operands stops or completes by its divisor (R154). -/
theorem exec_div_status {dst left right : RegId} {r : Reg} (hw : (Instr.div dst left right).wellFormed = true)
    (hr : regOfId right = some r) (s : State) : ∃ t, exec (.div dst left right) s = .next t ∧
      t.status = if readReg s r = 0#16 then .stop .divByZero else .continues := by
  obtain ⟨⟨d, hd⟩, ⟨l, hl⟩, _⟩ := by simpa [Instr.regIds] using (wellFormed_iff _).1 hw
  by_cases h0 : readReg s r = 0#16
  · exact ⟨_, exec_div_zero hd hl hr h0, (if_pos h0).symm⟩
  · exact ⟨_, exec_div_nonzero hd hl hr h0, (if_neg h0).symm⟩

/-- Settles O35: the reason for a DivByZero is the zero divisor of a well-formed DIV, and this DIV raises it. -/
theorem divByZeroIsRaisedByDivAlone : Obligations.DivByZeroIsRaisedByDivAlone := by
  refine fun i s => ⟨⟨?_, ?_⟩, fun t h hst => ?_⟩
  · rintro ⟨t, h, hst⟩
    cases (execRaises_of_stop h hst).1 with
    | divByZero hw hr h0 => exact ⟨hw, _, _, _, _, rfl, hr, h0⟩
  · rintro ⟨hw, dst, left, right, r, rfl, hr, h0⟩
    simpa [h0] using exec_div_status hw hr s
  · obtain ⟨_, rfl⟩ := execRaises_of_stop h hst
    exact stopped_raise .divByZero s

/-! ### Steps -/

/-- The causes a step of a running machine with the buffer `p` can raise, each with its condition and with the number of bytes
fetched before it (R152 to R156). -/
inductive StepRaises (p : List Byte) (s : State) : Cause → Nat → Prop where
  | missingByte {bs : List Byte} (hc : CodeAt p s.ip bs)
      (hl : ∀ op ops, bs = op :: ops → ops.length < operandCount opcodeMap op)
      (hn : p[(s.ip + BitVec.ofNat 16 bs.length).toNat]? = none) : StepRaises p s .truncatedProgram bs.length
  | unknownOpcode {op : Byte} (hb : p[s.ip.toNat]? = some op) (hm : mnemonicOf opcodeMap op = none) :
      StepRaises p s .unknownOpcode 1
  | executed {i : Instr} {c : Cause} (hc : CodeAt p s.ip (encode i))
      (hx : ExecRaises (advancePc s (encode i).length) i c) : StepRaises p s c (encode i).length

/-- A byte that is missing where none was fetched yet. -/
theorem StepRaises.missingOpcode {p : List Byte} {s : State} (hn : p[s.ip.toNat]? = none) :
    StepRaises p s .truncatedProgram 0 :=
  .missingByte (bs := []) trivial (fun _ _ h => nomatch h) (by simpa using hn)

section

variable {s t : State} {p : List Byte} (h : s.halted = false) (hp : s.program = some p)

include h hp

/-- A step of a running machine raises one of its causes, or it completes an instruction. -/
theorem stepRaises_or_completes :
    (∃ c n, StepRaises p s c n ∧ step s = .next (raise c (advancePc s n))) ∨ ∃ u, step s = .next (complete u) := by
  rcases step_cases h hp with ⟨hn, e⟩ | ⟨op, bs, hc, hl, hn, e⟩ | ⟨op, hb, hm, e⟩ | ⟨i, hc, e⟩
  · exact .inl ⟨_, 0, .missingOpcode hn, by rw [e, advancePc_zero]⟩
  · exact .inl ⟨_, _, .missingByte hc (fun _ _ hbs => by cases hbs; exact hl) hn, e⟩
  · exact .inl ⟨_, _, .unknownOpcode hb hm, e⟩
  · rcases execRaises_or_completes i (advancePc s (encode i).length) with ⟨c, hx, ex⟩ | ⟨u, ex⟩
    · exact .inl ⟨c, _, .executed hc hx, e.trans ex⟩
    · exact .inr ⟨u, e.trans ex⟩

/-- A step that stops has a reason to, and has changed nothing but `pc`, the halted flag and the status. -/
theorem stepRaises_of_stop {c : Cause} (ht : step s = .next t) (hst : t.status = .stop c) :
    ∃ n, StepRaises p s c n ∧ t = raise c (advancePc s n) := by
  rcases stepRaises_or_completes h hp with ⟨c', n, hr, e⟩ | ⟨u, e⟩ <;> rw [e] at ht <;> cases ht <;> cases hst
  exact ⟨n, hr, rfl⟩

end

/-- A Halt has one reason: a HLT at `pc`, one byte. -/
theorem StepRaises.code_of_halt {p : List Byte} {s : State} {n : Nat} (h : StepRaises p s .halt n) :
    n = 1 ∧ CodeAt p s.ip (encode .hlt) := by
  cases h with
  | executed hc hx => cases hx; exact ⟨rfl, hc⟩

theorem StepRaises.code_of_divByZero {p : List Byte} {s : State} {n : Nat} (h : StepRaises p s .divByZero n) :
    n = 4 ∧ ∃ dst left right, CodeAt p s.ip (encode (.div dst left right)) := by
  cases h with
  | executed hc hx => cases hx; exact ⟨rfl, _, _, _, hc⟩

theorem StepRaises.byte_of_unknownOpcode {p : List Byte} {s : State} {n : Nat} (h : StepRaises p s .unknownOpcode n) :
    n = 1 ∧ ∃ op, p[s.ip.toNat]? = some op ∧ mnemonicOf opcodeMap op = none := by
  cases h with
  | unknownOpcode hb hm => exact ⟨rfl, _, hb, hm⟩
  | executed _ hx => cases hx

theorem StepRaises.missing_of_truncatedProgram {p : List Byte} {s : State} {n : Nat} (h : StepRaises p s .truncatedProgram n) :
    ∃ bs : List Byte, bs.length = n ∧ CodeAt p s.ip bs ∧
      (∀ op ops, bs = op :: ops → ops.length < operandCount opcodeMap op) ∧
      p[(s.ip + BitVec.ofNat 16 n).toNat]? = none := by
  cases h with
  | missingByte hc hl hn => exact ⟨_, rfl, hc, hl, hn⟩
  | executed _ hx => cases hx

/-- Settles O33: a HLT that lies at `pc` is executed, and it is the one reason for a Halt. -/
theorem haltIsRaisedByHltAlone : Obligations.HaltIsRaisedByHltAlone := by
  refine fun s p h hp => ⟨fun hc => ⟨_, step_of_code h hp hc, stopped_raise_advancePc .halt s 1⟩, fun t ht hst => ?_⟩
  obtain ⟨_, hr, _⟩ := stepRaises_of_stop h hp ht hst
  exact hr.code_of_halt.2

end Sys2Proof.Machine
end

section
/-! SUPPORT. Unknown opcodes (R153), the missing byte (R156), the place of a stop (R168) and the priority of the causes (R157). -/

namespace Sys2Proof

/-! ### The default opcode bytes: the first 17 -/

theorem opcodeMap_toNat_lt (m : Mnemonic) : (opcodeMap m).toNat < 0x11 := by cases m <;> decide

/-- The default opcode byte of a mnemonic is its position in the table of R62. -/
theorem toNat_opcodeMap_all_get : ∀ n : Fin Mnemonic.all.length, (opcodeMap (Mnemonic.all.get n)).toNat = n := by
  decide

/-- D1: with the default map the unknown opcodes are the bytes from 0x11 on. -/
theorem mnemonicOf_opcodeMap_eq_none_iff (op : Byte) : mnemonicOf opcodeMap op = none ↔ 0x11 ≤ op.toNat := by
  constructor
  · intro hm
    by_contra hlt
    have hpos := toNat_opcodeMap_all_get ⟨op.toNat, Nat.not_le.1 hlt⟩
    exact mnemonicOf_none hm _ (BitVec.eq_of_toNat_eq hpos)
  · exact fun hop => mnemonicOf_eq_none fun m hm => absurd (hm ▸ opcodeMap_toNat_lt m) (Nat.not_lt.2 hop)

end Sys2Proof

namespace Sys2Proof.Machine

/-- R66, R153: an unknown opcode byte at `pc` is the one byte fetched, and the step raises. -/
theorem step_unknown {s : State} {p : List Byte} {op : Byte} (h : s.halted = false) (hp : s.program = some p)
    (hb : p[s.ip.toNat]? = some op) (hm : mnemonicOf opcodeMap op = none) :
    step s = .next (raise .unknownOpcode (advancePc s 1)) :=
  step_raised h (fetchInstrWith_unknown hp hb (mnemonicOf_none hm))

/-- Settles O34: the bytes from 0x11 on are the unknown ones, and one at `pc` is the one reason for this cause. -/
theorem unknownOpcodeStops : Obligations.UnknownOpcodeStops := by
  intro s p op h hp hb
  refine ⟨fun hop => ⟨_, step_unknown h hp hb ((mnemonicOf_opcodeMap_eq_none_iff op).2 hop),
    stopped_raise_advancePc .unknownOpcode s 1⟩, fun t ht hst => ?_⟩
  obtain ⟨_, hr, _⟩ := stepRaises_of_stop h hp ht hst
  obtain ⟨_, op', hb', hm⟩ := hr.byte_of_unknownOpcode
  obtain rfl : op = op' := Option.some.inj (hb.symm.trans hb')
  exact (mnemonicOf_opcodeMap_eq_none_iff op).1 hm

/-- Settles O37: the reason for a TruncatedProgram is a missing byte, and a buffer that fills the space has none. -/
theorem truncatedStopsAtTheMissingByte : Obligations.TruncatedStopsAtTheMissingByte := by
  intro s t p h hp ht
  refine ⟨fun hst => ?_, fun hfull hst => ?_⟩ <;> obtain ⟨n, hr, rfl⟩ := stepRaises_of_stop h hp ht hst <;>
    obtain ⟨bs, rfl, hc, hl, hn⟩ := hr.missing_of_truncatedProgram
  · exact ⟨bs, hc, hl, rfl, hn, List.getElem?_eq_none_iff.1 hn, stopped_raise_advancePc .truncatedProgram s bs.length⟩
  · have hle := List.getElem?_eq_none_iff.1 hn
    rw [hfull] at hle
    exact absurd (s.ip + BitVec.ofNat 16 bs.length).isLt (Nat.not_lt.2 hle)

/-- Settles O38: each reason for a stop says how many bytes lie between the place and `pc`. -/
theorem stopPlaceIsRecoverable : Obligations.StopPlaceIsRecoverable := by
  intro s t p h hp ht
  refine ⟨fun hst => ?_, fun hst => ?_, fun hst => ?_, fun hst => ?_⟩ <;>
    obtain ⟨n, hr, rfl⟩ := stepRaises_of_stop h hp ht hst
  · obtain ⟨rfl, hc⟩ := hr.code_of_halt
    simpa using hc
  · obtain ⟨rfl, op, hop⟩ := hr.byte_of_unknownOpcode
    exact ⟨op, by simpa using hop⟩
  · obtain ⟨rfl, dst, left, right, hc⟩ := hr.code_of_divByZero
    exact ⟨dst, left, right, by simpa using hc⟩
  · obtain ⟨_, _, _, _, hn⟩ := hr.missing_of_truncatedProgram
    exact hn

/-! ### The status by priority (R157) -/

/-- Each byte of code that lies at an address is in the buffer. -/
theorem codeAt_getElem? {p : List Byte} (bs : List Byte) : ∀ {a : Word} {k : Nat}, CodeAt p a bs → k < bs.length →
    p[(a + BitVec.ofNat 16 k).toNat]? = bs[k]? := by
  induction bs with
  | nil => intro a k _ hk; exact absurd hk (Nat.not_lt_zero k)
  | cons b bs ih =>
    rintro a k ⟨hb, hbs⟩ hk
    cases k with
    | zero => simpa using hb
    | succ k => rw [address_succ, ih hbs (Nat.lt_of_succ_lt_succ hk), List.getElem?_cons_succ]

/-- R156: a known opcode at `pc` with any one of its operand bytes missing stops the step with TruncatedProgram. -/
theorem step_missing_operand {s : State} {p : List Byte} {op : Byte} {m : Mnemonic} {k : Nat} (h : s.halted = false)
    (hp : s.program = some p) (hb : p[s.ip.toNat]? = some op) (hm : mnemonicOf opcodeMap op = some m)
    (hk : k ≤ operandBytes (formatOf m)) (hn : p[(s.ip + BitVec.ofNat 16 k).toNat]? = none) :
    ∃ n, step s = .next (raise .truncatedProgram (advancePc s n)) := by
  rcases step_cases h hp with ⟨hb', _⟩ | ⟨_, bs, _, _, _, e⟩ | ⟨op', hb', hm', _⟩ | ⟨i, hc, _⟩
  · simp [hb] at hb'
  · exact ⟨_, e⟩
  · obtain rfl : op = op' := Option.some.inj (hb.symm.trans hb')
    simp [hm] at hm'
  · obtain rfl : op = opcodeMap i.mnemonic := Option.some.inj (hb.symm.trans hc.1)
    obtain rfl : i.mnemonic = m := by simpa using hm
    have hlt : k < (encode i).length := Nat.lt_succ_of_le (operandsOf_length i ▸ hk)
    rw [codeAt_getElem? _ hc hlt, List.getElem?_eq_none_iff] at hn
    exact absurd hlt (Nat.not_lt.2 hn)

/-- A step has one status: that of any state it is known to answer. -/
theorem status_of_step {s t u : State} {st : Status} (ht : step s = .next t) (e : step s = .next u)
    (hst : u.status = st) : t.status = st := by
  cases ht.symm.trans e
  exact hst

/-- Settles O25: the step of each clause, from the rule of its own check. -/
theorem statusByPriority : Obligations.StatusByPriority := by
  intro s p hp
  obtain ⟨t, ht, _⟩ := everyStepContinuesOrHalts s (by simp [hp])
  refine ⟨t, ht, fun h => status_of_step ht (step_halted h) rfl,
    fun h hn => status_of_step ht (step_raised h (fetchInstr_no_opcode hp hn)) rfl,
    fun h op hb => ⟨fun hm => status_of_step ht (step_unknown h hp hb hm) rfl,
      fun m hm => ⟨fun k hk hn => ?_, fun i hc => ?_⟩⟩⟩
  · obtain ⟨n, e⟩ := step_missing_operand h hp hb hm hk hn
    exact status_of_step ht e rfl
  · have e := step_of_code h hp hc
    refine ⟨fun hw => status_of_step ht (e.trans (exec_of_illFormed hw _)) rfl, fun hw => ⟨?_, ?_, ?_⟩⟩
    · rintro rfl
      exact status_of_step ht e rfl
    · rintro dst left right r rfl hr
      obtain ⟨u, hu, hst⟩ := exec_div_status hw hr (advancePc s 4)
      exact status_of_step ht (e.trans hu) hst
    · intro hhlt hdiv
      obtain ⟨u, hu, hst, _⟩ := wellFormedInstructionsComplete i (advancePc s (encode i).length) hw hhlt
        (fun dst left right _ hi => absurd hi (hdiv dst left right))
      exact status_of_step ht (e.trans hu) hst

end Sys2Proof.Machine
end

section
/-! SUPPORT. The host between steps (R181, R188): each of its operations said once, and what it keeps. -/

namespace Sys2Proof.Machine

/-! ### Run start (R181) -/

/-- A run start that is accepted has a buffer that fits, and one next state. -/
theorem eq_of_runStart {buffer : List Byte} {s t : State} (h : runStart buffer s = .next t) :
    buffer.length ≤ 65536 ∧
      t = { s with program := some buffer, halted := false, ip := 0#16, status := .continues } := by
  rcases Nat.lt_or_ge 65536 buffer.length with hb | hb
  · rw [runStart_refused hb] at h
    cases h
  · rw [runStart_next hb] at h
    cases h
    exact ⟨hb, rfl⟩

/-- Of the registers, a run start writes `pc` alone (R181, R182). -/
theorem regsSameExcept_runStart {buffer : List Byte} {s t : State} (h : runStart buffer s = .next t) :
    RegsSameExcept [.ip] s t := by
  obtain ⟨_, rfl⟩ := eq_of_runStart h
  intro r hr
  have hpc : readReg { s with program := some buffer, halted := false, ip := 0#16, status := .continues } r =
      readReg (writeReg s .ip 0#16) r := by cases r <;> rfl
  exact hpc.trans (regsSameExcept_writeReg s .ip 0#16 r hr)

/-- Settles O14: the next state of a run start is written out by `runStart_next`, so only the registers need a case each. -/
theorem runStartDoesThreeThings : Obligations.RunStartDoesThreeThings := fun _ s =>
  ⟨fun hb => ⟨_, runStart_next hb s, rfl, rfl, rfl, rfl, regsSameExcept_runStart (runStart_next hb s),
      bytesSameExcept_of_mem_eq rfl []⟩,
    fun hb => runStart_refused hb s⟩

/-- Settles O15: with no buffer bound the fetch has nothing to read (`step_unbound`). -/
theorem stepBeforeAnyRunFaults : Obligations.StepBeforeAnyRunFaults := fun _ => step_unbound

/-! ### The invariant between steps (R188) -/

/-- A run start needs nothing of the halted flag, the status or the buffer before it. -/
theorem stateInv_runStart {buffer : List Byte} {s t : State} (h : runStart buffer s = .next t)
    (hs : Memory.wf s.mem = true) : StateInv t := by
  obtain ⟨hb, rfl⟩ := eq_of_runStart h
  exact
    { memory := hs
      buffer := fun _ hp => Option.some.inj hp ▸ hb
      halting := by simp }

theorem stateInv_writeReg {s : State} (hs : StateInv s) (r : Reg) (v : Word) : StateInv (writeReg s r v) where
  memory := by simpa using hs.memory
  buffer := by simpa using hs.buffer
  halting := by simpa using hs.halting

/-- A register access that is accepted writes one register. -/
theorem eq_of_setRegister {i : RegId} {v : Word} {s t : State} (h : setRegister i v s = .next t) :
    ∃ r, regOfId i = some r ∧ t = writeReg s r v := by
  cases hi : regOfId i with
  | none => rw [setRegister_none hi] at h; cases h
  | some r => rw [setRegister_some hi] at h; cases h; exact ⟨r, rfl, rfl⟩

/-- Any canonical contents may take the place of data memory. -/
theorem stateInv_withMem {s : State} (hs : StateInv s) {m : Memory} (hm : Memory.wf m = true) :
    StateInv { s with mem := m } where
  memory := hm
  buffer := hs.buffer
  halting := hs.halting

/-- Settles O18: a run start makes the invariant anew, a register is no part of it, and every write to data memory keeps the
canonical form. -/
theorem hostOperationsKeepTheInvariant : Obligations.HostOperationsKeepTheInvariant := by
  intro s hs
  refine ⟨fun buffer t h => stateInv_runStart h hs.memory, fun i v t h => ?_,
    fun a b => stateInv_withMem hs (memWrite8_wf s.mem a b hs.memory),
    fun a v => stateInv_withMem hs (memWrite16_wf s.mem a v hs.memory),
    fun a v => stateInv_withMem hs (memWrite32_wf s.mem a v hs.memory),
    fun c bs => stateInv_withMem hs (memWriteBytes_wf bs s.mem c hs.memory)⟩
  obtain ⟨r, _, rfl⟩ := eq_of_setRegister h
  exact stateInv_writeReg hs r v

end Sys2Proof.Machine
end

section
/-! SUPPORT. The words the spec lists, as encodings (R60, R61). -/

namespace Sys2Proof

/-- An instruction's own bytes, under the default opcode map, decode to it with nothing left over. -/
theorem decode_encode (i : Instr) : decode (encode i) = .instr i [] := by
  simpa [decode, encode] using decodeOfEncodeGivesInstruction opcodeMap opcodeMap_injective i []

/-- Settles O3: each listed word computes as the encoding of the instruction it is listed with. -/
theorem listedWordsDecode : Obligations.ListedWordsDecode :=
  ⟨decode_encode .hlt, decode_encode (.movlr 3 0x0005), decode_encode (.movrr 4 3), decode_encode (.movrm 0x0100 3),
    decode_encode (.div 5 3 4), decode_encode (.cmp 3 4), decode_encode (.jeq 0x0013)⟩

end Sys2Proof
end
